-- ==== Sys2Proof/Word.lean ====
section
/-! DEFINITION. The word types of the core (00_scope.md rule R5, 30_encoding.md rules R71, R72). -/

namespace Sys2Proof

/-- A byte: a general register, a timer, a memory byte, a display cell (R5). -/
abbrev Byte := BitVec 8

/-- A 16-bit word: an instruction word, I, PC, a stack entry (R5). -/
abbrev Word := BitVec 16

/-- A register index, the 4-bit field X or Y of a word (R72). -/
abbrev Reg := BitVec 4

/-- A 12-bit absolute address, the field NNN of a word (R72). -/
abbrev Addr12 := BitVec 12

/-- A 4-bit count, the field N of a word (R72). -/
abbrev Count := BitVec 4

/-- Register 15, VF, the flag register (R5 FLAG_REG, R21). -/
abbrev regF : Reg := 0xF#4

/-- Register 0, the base register of JP V0, NNN (R108). -/
abbrev reg0 : Reg := 0x0#4

end Sys2Proof
end

