-- ==== Sys2Proof/Syntax.lean ====
section
/-! DEFINITION. The instructions: one constructor per row of the opcode table (30_encoding.md rule R74), in the
table's order. -/

namespace Sys2Proof

/-- The 35 variants of R74. -/
inductive Instr where
  /-- 00E0, CLS (R100). -/
  | cls
  /-- 00EE, RET (R101). -/
  | ret
  /-- 0NNN other than 00E0 and 00EE, SYS NNN (R76, R109). -/
  | sys (nnn : Addr12)
  /-- 1NNN, JP NNN (R102). -/
  | jp (nnn : Addr12)
  /-- 2NNN, CALL NNN (R103). -/
  | call (nnn : Addr12)
  /-- 3XNN, SE Vx, NN (R104). -/
  | seImm (x : Reg) (nn : Byte)
  /-- 4XNN, SNE Vx, NN (R106). -/
  | sneImm (x : Reg) (nn : Byte)
  /-- 5XY0, SE Vx, Vy (R105). -/
  | seReg (x y : Reg)
  /-- 6XNN, LD Vx, NN (R121). -/
  | ldImm (x : Reg) (nn : Byte)
  /-- 7XNN, ADD Vx, NN (R123). -/
  | addImm (x : Reg) (nn : Byte)
  /-- 8XY0, LD Vx, Vy (R122). -/
  | ldReg (x y : Reg)
  /-- 8XY1, OR Vx, Vy (R124). -/
  | orReg (x y : Reg)
  /-- 8XY2, AND Vx, Vy (R125). -/
  | andReg (x y : Reg)
  /-- 8XY3, XOR Vx, Vy (R126). -/
  | xorReg (x y : Reg)
  /-- 8XY4, ADD Vx, Vy (R127). -/
  | addReg (x y : Reg)
  /-- 8XY5, SUB Vx, Vy, whose destination is Vy (R128). -/
  | sub (x y : Reg)
  /-- 8XY6, SHR Vx (R130). `y` is the ignored field (R77), kept so that the word can be written back. -/
  | shr (x y : Reg)
  /-- 8XY7, SUBN Vx, Vy (R129). -/
  | subn (x y : Reg)
  /-- 8XYE, SHL Vx (R131). `y` is the ignored field (R77), kept so that the word can be written back. -/
  | shl (x y : Reg)
  /-- 9XY0, SNE Vx, Vy (R107). -/
  | sneReg (x y : Reg)
  /-- ANNN, LD I, NNN (R140). -/
  | ldI (nnn : Addr12)
  /-- BNNN, JP V0, NNN (R108). -/
  | jpV0 (nnn : Addr12)
  /-- CXNN, RND Vx, NN (R132). -/
  | rnd (x : Reg) (nn : Byte)
  /-- DXYN, DRW Vx, Vy, N (R150). -/
  | drw (x y : Reg) (n : Count)
  /-- EX9E, SKP Vx (R160). -/
  | skp (x : Reg)
  /-- EXA1, SKNP Vx (R161). -/
  | sknp (x : Reg)
  /-- FX07, LD Vx, DT (R170). -/
  | ldVxDt (x : Reg)
  /-- FX0A, LD Vx, K (R162). -/
  | ldVxK (x : Reg)
  /-- FX15, LD DT, Vx (R171). -/
  | ldDtVx (x : Reg)
  /-- FX18, LD ST, Vx (R172). -/
  | ldStVx (x : Reg)
  /-- FX1E, ADD I, Vx (R141). -/
  | addI (x : Reg)
  /-- FX29, LD F, Vx (R142). -/
  | ldF (x : Reg)
  /-- FX33, LD B, Vx (R143). -/
  | ldB (x : Reg)
  /-- FX55, LD [I], Vx (R144). -/
  | ldMemVx (x : Reg)
  /-- FX65, LD Vx, [I] (R145). -/
  | ldVxMem (x : Reg)
  deriving DecidableEq, Repr

end Sys2Proof
end

