-- ==== Sys2Proof/Config.lean ====
section
/-! DEFINITION. The core's fixed sizes (00_scope.md rule R5), the named parameters the spec leaves open (R6) as
plain data, and the one free value, the byte RND draws (10_state.md rule R33). -/

namespace Sys2Proof

/-- MEMSIZE (R5): addresses 0x000 to 0xFFF. -/
def memSize : Nat := 4096

/-- FONT_SIZE (R5): the font table occupies 0x000 to 0x04F. -/
def fontSize : Nat := 80

/-- GLYPH_BYTES (R5): glyph `d` stands at `5 * d`. -/
def glyphBytes : Nat := 5

/-- PROG_BASE (R5): the reset value of PC and the first address of a program image. -/
def progBase : Nat := 0x200

/-- PROG_MAX (R5): the largest program image, in bytes. -/
def progMax : Nat := 3232

/-- STACK_DEPTH (R5). -/
def stackDepth : Nat := 16

/-- NKEYS (R5). -/
def numKeys : Nat := 16

/-- DISP_W (R5). -/
def dispWidth : Nat := 64

/-- DISP_H (R5). -/
def dispHeight : Nat := 32

/-- FLAG_ORDER (R6, R120): which of result and flag is committed last when both name VF. -/
inductive FlagOrder where
  | resultThenFlag
  | flagThenResult
  deriving DecidableEq, Repr

/-- DRAW_EDGE_POLICY (R6, R151): what happens to a sprite pixel off the display. -/
inductive DrawEdgePolicy where
  | wrap
  | clip
  | fault
  deriving DecidableEq, Repr

/-- FONT_WRITE_POLICY (R6, R55): whether an instruction may write 0x000 to 0x04F. -/
inductive FontWritePolicy where
  | fault
  | allow
  deriving DecidableEq, Repr

/-- ODD_PC_POLICY (R6, R70): whether a fetch at an odd PC faults. -/
inductive OddPcPolicy where
  | fault
  | fetch
  deriving DecidableEq, Repr

/-- The values of the open parameters of one instance of the core (R6). RAND, the sixth, is `Config.rand`. -/
structure Params where
  /-- FONT: any 80-byte table. -/
  font : Vector Byte 80
  /-- FLAG_ORDER. -/
  flagOrder : FlagOrder
  /-- DRAW_EDGE_POLICY. -/
  drawEdge : DrawEdgePolicy
  /-- FONT_WRITE_POLICY. -/
  fontWrite : FontWritePolicy
  /-- ODD_PC_POLICY. -/
  oddPc : OddPcPolicy
  deriving DecidableEq, Repr

/-- RAND (R6, R33, D22): the byte of the n-th draw. A FREE VALUE: it has no body, so nothing can be proved of any
draw, and a claim about RND holds for every byte. `State.draws` selects a fresh one at each execution of RND.
Log entry 4. -/
opaque Config.rand : Nat → Byte

end Sys2Proof
end

