-- ==== Sys2Proof/Machine/Params.lean ====
section
/-! DEFINITION. The parameter values of the hardware this spec describes (00_scope.md rule R6, column "spec's choice"),
the standard font among them (20_memory.md rule R53). Log entry 3. -/

namespace Sys2Proof.Machine

/-- Glyphs 0 to 3 (R53). -/
def fontGlyphs0 : List Byte :=
  [0xF0, 0x90, 0x90, 0x90, 0xF0,  0x20, 0x60, 0x20, 0x20, 0x70,
   0xF0, 0x10, 0xF0, 0x80, 0xF0,  0xF0, 0x10, 0xF0, 0x10, 0xF0]

/-- Glyphs 4 to 7 (R53). -/
def fontGlyphs4 : List Byte :=
  [0x90, 0x90, 0xF0, 0x10, 0x10,  0xF0, 0x80, 0xF0, 0x10, 0xF0,
   0xF0, 0x80, 0xF0, 0x90, 0xF0,  0xF0, 0x10, 0x20, 0x40, 0x40]

/-- Glyphs 8 to B (R53). -/
def fontGlyphs8 : List Byte :=
  [0xF0, 0x90, 0xF0, 0x90, 0xF0,  0xF0, 0x90, 0xF0, 0x10, 0xF0,
   0xF0, 0x90, 0xF0, 0x90, 0x90,  0xE0, 0x90, 0xE0, 0x90, 0xE0]

/-- Glyphs C to F (R53). -/
def fontGlyphsC : List Byte :=
  [0xF0, 0x80, 0x80, 0x80, 0xF0,  0xE0, 0x90, 0x90, 0x90, 0xE0,
   0xF0, 0x80, 0xF0, 0x80, 0xF0,  0xF0, 0x80, 0xF0, 0x80, 0x80]

/-- The standard CHIP-8 font, this spec's value of FONT (R53, D19). -/
def standardFont : Vector Byte 80 :=
  ⟨⟨fontGlyphs0 ++ fontGlyphs4 ++ fontGlyphs8 ++ fontGlyphsC⟩, by decide⟩

/-- This spec's hardware (R6): `result_then_flag`, `wrap`, `fault`, `fault`, the standard font. -/
def hardwareParams : Params where
  font := standardFont
  flagOrder := .resultThenFlag
  drawEdge := .wrap
  fontWrite := .fault
  oddPc := .fault

end Sys2Proof.Machine
end

