-- ==== Sys2Proof/Machine/Memory.lean ====
section
/-! DEFINITION. The 4096-byte memory as a canonical list of cells (20_memory.md rules R50 to R52). Bounds and the
font policy are checked by the access primitives of Machine/Ops.lean, not here. -/

namespace Sys2Proof.Machine

/-- The bytes that differ from the reset contents, addresses strictly rising. -/
abbrev Memory := List Host.Cell

/-- What an address that no cell lists reads as: the reset contents (R52) under this spec's FONT (R53). A machine
with another FONT lists its font bytes (`State.resetWith`). -/
def background (a : Nat) : Byte := standardFont.toList.getD a 0x00#8

/-- The byte at address `a`. -/
def Memory.read : Memory → Nat → Byte
  | [], a => background a
  | c :: rest, a => if c.1 = a then c.2 else Memory.read rest a

/-- A cell kept only where it differs from the background. -/
def Memory.keepCell (a : Nat) (b : Byte) (rest : Memory) : Memory :=
  if b = background a then rest else (a, b) :: rest

/-- Put byte `b` at address `a`, keeping the canonical form. -/
def Memory.write : Memory → Nat → Byte → Memory
  | [], a, b => Memory.keepCell a b []
  | c :: rest, a, b =>
    if a < c.1 then Memory.keepCell a b (c :: rest)
    else if a = c.1 then Memory.keepCell a b rest
    else c :: Memory.write rest a b

/-- Put bytes at consecutive addresses from `a`. -/
def Memory.writeBytes : Memory → Nat → List Byte → Memory
  | m, _, [] => m
  | m, a, b :: bs => Memory.writeBytes (Memory.write m a b) (a + 1) bs

/-- The canonical form from address `lo` on: addresses strictly rising from at least `lo` and inside memory, and no
cell equal to the background. -/
def Memory.wfFrom : Nat → Memory → Bool
  | _, [] => true
  | lo, c :: rest => decide (lo ≤ c.1) && decide (c.1 < memSize) && (c.2 != background c.1)
      && Memory.wfFrom (c.1 + 1) rest

/-- The canonical form: equal memories are equal lists. -/
def Memory.wf (m : Memory) : Bool := Memory.wfFrom 0 m

end Sys2Proof.Machine
end

