-- ==== Sys2Proof/Machine/State.lean ====
section
/-! DEFINITION. The machine state (10_state.md), the faults and the reset state (70_reset_and_hazards.md rule R250). -/

namespace Sys2Proof.Machine

/-- The fault codes of 60_exceptions.md rule R205, in its order. -/
inductive FaultCode where
  | unknownInstruction
  | unsupportedSys
  | stackOverflow
  | stackUnderflow
  | memReadOob
  | memWriteOob
  | fontWrite
  | fetchOob
  | misalignedFetch
  | keyIndexOob
  | displayOob
  | loadError
  deriving DecidableEq, Repr

/-- A fault record (R31, R208): the code, the PC of the step that faulted, the word it fetched (absent for a fetch
fault) and the offending address, key index or display index where there is one. -/
structure FaultRecord where
  code : FaultCode
  pc : Word
  word : Option Word
  info : Option Nat
  deriving DecidableEq, Repr

/-- Why a step has no next state. -/
inductive Fault where
  /-- Raised by `step` alone, when FAULT is already set: the core has stopped and the step reports the record that
  stands in FAULT (R206). Safe: the spec gives such a step no effect. The step that RAISES a fault is no case of
  this: it has a next state, whose FAULT holds the record (R203, R208; log entry 1). -/
  | stopped (record : FaultRecord)
  deriving DecidableEq, Repr

/-- Why there is no answer. -/
inductive Refusal where
  /-- An instruction with no meaning yet, raised only by an arm of `exec`; no arm of this model does. Safe. -/
  | notModelled (mnemonic : String)
  /-- Raised by every operation of `Session` but reset after LOAD_ERROR: the session has ended and memory is not
  specified (R253, U18). Safe: only reset is answered. -/
  | sessionEnded
  /-- Raised by `Session.load` for a second load or a load after the first step, which the host must not do (R252,
  U19). Safe. -/
  | loadNotAllowed
  deriving DecidableEq, Repr

/-- The display buffer (R29): 32 rows of 64 one-byte cells. -/
abbrev Display := Vector (Vector Byte 64) 32

/-- The machine. -/
structure State where
  /-- The implementation parameters of this instance (00_scope.md R6). The model's own field: no step changes it. -/
  params : Params
  /-- V0 to VF (R20). -/
  v : Vector Byte 16
  /-- The index register I (R23). -/
  i : Word
  /-- The program counter PC (R24). -/
  pc : Word
  /-- The call stack STACK[0..15] (R25). -/
  stack : Vector Word 16
  /-- The stack pointer SP, 0 to 16 (R26). -/
  sp : Fin 17
  /-- The delay timer DT (R27). -/
  dt : Byte
  /-- The sound timer ST (R27). -/
  st : Byte
  /-- The key flags KEY[0..15] (R28). -/
  keys : Vector Bool 16
  /-- The display buffer DISP (R29). -/
  display : Display
  /-- The memory (R30). -/
  mem : Memory
  /-- The fault status FAULT (R31). -/
  fault : Option FaultRecord
  /-- The output BUZZER of the last step (R32; log entry 2). -/
  buzzer : Bool
  /-- The output CLEAR_REQ of the last step (R32; log entry 2). -/
  clearReq : Bool
  /-- How many free bytes RND has drawn (R33; log entry 4). The model's own field. -/
  draws : Nat
  deriving DecidableEq, Repr

/-- The machine right after reset (R250, R251), this spec's hardware: nothing is loaded. -/
def State.reset : State where
  params := hardwareParams
  v := Vector.replicate 16 0x00#8
  i := 0x0000#16
  pc := 0x0200#16
  stack := Vector.replicate 16 0x0000#16
  sp := 0
  dt := 0x00#8
  st := 0x00#8
  keys := Vector.replicate 16 false
  display := Vector.replicate 32 (Vector.replicate 64 0x00#8)
  mem := []
  fault := none
  buzzer := false
  clearReq := false
  draws := 0

end Sys2Proof.Machine
end

