-- ==== Sys2Proof/Machine/Ops.lean ====
section
/-! DEFINITION. The named operations over registers, stack, keys, display and memory (00_scope.md rule R9), the fetch
(30_encoding.md rule R70), taking a fault (60_exceptions.md rules R203, R208) and the timer tick (R215). -/

namespace Sys2Proof.Machine

/-! ## Registers -/

/-- `V[x]` (R9, R20). -/
def State.reg (s : State) (x : Reg) : Byte := s.v[x.toNat]'x.isLt

/-- `V[x] <- b` (R9, R20). -/
def State.setReg (s : State) (x : Reg) (b : Byte) : State := { s with v := s.v.set x.toNat b x.isLt }

/-- `I <- w` (R9, R23). -/
def State.setI (s : State) (w : Word) : State := { s with i := w }

/-- `PC <- w` (R9, R24). -/
def State.setPc (s : State) (w : Word) : State := { s with pc := w }

/-- `DT <- b` (R9, R27). -/
def State.setDt (s : State) (b : Byte) : State := { s with dt := b }

/-- `ST <- b` (R9, R27). -/
def State.setSt (s : State) (b : Byte) : State := { s with st := b }

/-- The default next PC, `u16(PC + 2)` (R24). -/
def State.advance (s : State) : State := s.setPc (s.pc + 2#16)

/-- The next PC of a skip: `u16(PC + 4)` when taken, else `u16(PC + 2)` (R104). -/
def State.skipIf (s : State) (taken : Bool) : State := s.setPc (s.pc + if taken then 4#16 else 2#16)

/-- Put bytes into the registers from index `k` on (R145); an index above 15 does not occur. -/
def loadRegsFrom : Vector Byte 16 → Nat → List Byte → Vector Byte 16
  | v, _, [] => v
  | v, k, b :: bs => loadRegsFrom (v.setIfInBounds k b) (k + 1) bs

/-- `V[0]`, `V[1]`, ... <- the bytes, in order (R145). -/
def State.loadRegs (s : State) (bs : List Byte) : State := { s with v := loadRegsFrom s.v 0 bs }

/-- The bytes `V[0]` to `V[n - 1]` (R144). -/
def State.regBytes (s : State) (n : Nat) : List Byte := (List.range n).map fun k => s.reg (BitVec.ofNat 4 k)

/-! ## Call stack -/

/-- `STACK[k]` (R9, R25); an index above 15 does not occur. -/
def State.stackAt (s : State) (k : Nat) : Word := if h : k < 16 then s.stack[k] else 0#16

/-- `STACK[SP] <- w`, then `SP <- SP + 1` (R26, R103), with SP below 16. -/
def State.push (s : State) (w : Word) : State :=
  { s with stack := s.stack.setIfInBounds s.sp.val w, sp := Fin.ofNat 17 (s.sp.val + 1) }

/-- `SP <- SP - 1`, with SP above 0; the entry is kept (R25, R26, R101). -/
def State.pop (s : State) : State := { s with sp := Fin.ofNat 17 (s.sp.val - 1) }

/-! ## Keys -/

/-- `KEY[k]` (R9, R28); an index above 15 does not occur. -/
def State.keyDown (s : State) (k : Nat) : Bool := if h : k < 16 then s.keys[k] else false

/-- `max(pressed)` among the key indices below `n`, none if no such key is pressed (R162). -/
def State.highestKeyBelow (s : State) : Nat → Option Nat
  | 0 => none
  | n + 1 => if s.keyDown n then some n else s.highestKeyBelow n

/-! ## Display -/

/-- A cell of the display: column `x`, row `y` (R29). -/
structure Pixel where
  x : Fin 64
  y : Fin 32
  deriving DecidableEq, Repr

/-- `DISP[y][x]` (R9, R29). -/
def Display.cell (d : Display) (p : Pixel) : Byte := (d[p.y])[p.x]

/-- `DISP[y][x] <- b` (R9, R29). -/
def Display.setCell (d : Display) (p : Pixel) (b : Byte) : Display := d.set p.y ((d[p.y]).set p.x b)

/-- `on(c)` (R9, R29): any non-zero cell is on. -/
def cellOn (c : Byte) : Bool := c != 0x00#8

/-- `1 - on(c)` (R150). -/
def cellToggled (c : Byte) : Byte := if cellOn c then 0x00#8 else 0x01#8

/-- The display with every cell 0 (R100). -/
def displayClear : Display := Vector.replicate 32 (Vector.replicate 64 0x00#8)

/-! ## Memory -/

/-- What `raise Fault(code, info)` names (R9). -/
structure FaultCause where
  code : FaultCode
  info : Option Nat
  deriving DecidableEq, Repr

/-- The byte of memory at address `a`, with no check: for reading a state (R225) and for frames. -/
def State.byteAt (s : State) (a : Nat) : Byte := s.mem.read a

/-- `MemRead(a, 1)` (R54). -/
def State.memRead (s : State) (a : Nat) : Except FaultCause Byte :=
  if a > 0xFFF then .error ⟨.memReadOob, some a⟩ else .ok (s.byteAt a)

/-- `MemRead` at each address, in order; the first that fails names the fault (R58, R207). -/
def State.memReadAll (s : State) : List Nat → Except FaultCause (List Byte)
  | [] => .ok []
  | a :: rest =>
    match s.memRead a with
    | .error c => .error c
    | .ok b =>
      match s.memReadAll rest with
      | .error c => .error c
      | .ok bs => .ok (b :: bs)

/-- The checks of `MemWrite(a, 1, v)` (R55). -/
def State.checkWrite (s : State) (a : Nat) : Except FaultCause Unit :=
  if a > 0xFFF then .error ⟨.memWriteOob, some a⟩
  else if a ≤ 0x04F ∧ s.params.fontWrite = .fault then .error ⟨.fontWrite, some a⟩
  else .ok ()

/-- The checks of `MemWrite` at each address, in order; the first that fails names the fault (R10, R207). -/
def State.checkWriteAll (s : State) : List Nat → Except FaultCause Unit
  | [] => .ok ()
  | a :: rest =>
    match s.checkWrite a with
    | .error c => .error c
    | .ok () => s.checkWriteAll rest

/-- The committed writes `mem[a] <- b`, `mem[a + 1] <- ...` (R55), every address checked before. -/
def State.storeBytes (s : State) (a : Nat) (bs : List Byte) : State := { s with mem := s.mem.writeBytes a bs }

/-! ## Faults -/

/-- TAKING A FAULT (R203, R208): FAULT holds the code, the faulting instruction's PC, its word and the info; both
outputs are 0; nothing else changes and control goes nowhere. There is no return from a fault (R209): reset alone
clears FAULT (R206). -/
def State.takeFault (s : State) (c : FaultCause) (w : Option Word) : State :=
  { s with fault := some ⟨c.code, s.pc, w, c.info⟩, buzzer := false, clearReq := false }

/-- The two phases of an instruction (R10): the checks gave a committed state, or raised a fault, which is taken with
the instruction's word `w`. -/
def State.complete (s : State) (w : Word) (r : Except FaultCause State) : Host.Outcome State Fault Refusal :=
  match r with
  | .ok t => .next t
  | .error c => .next (s.takeFault c (some w))

/-! ## The parts of a step -/

/-- `BUZZER <- 0 ; CLEAR_REQ <- 0` (R200). -/
def State.clearOutputs (s : State) : State := { s with buzzer := false, clearReq := false }

/-- The big-endian word at address `a` (R56). -/
def State.wordAt (s : State) (a : Nat) : Word := wordOfBytes (s.byteAt a) (s.byteAt (a + 1))

/-- `fetch()` (R70): FETCH_OOB before MISALIGNED_FETCH. -/
def State.fetch (s : State) : Except FaultCause Word :=
  if s.pc.toNat > 0xFFE then .error ⟨.fetchOob, some s.pc.toNat⟩
  else if s.pc.toNat % 2 = 1 ∧ s.params.oddPc = .fault then .error ⟨.misalignedFetch, some s.pc.toNat⟩
  else .ok (s.wordAt s.pc.toNat)

/-- One timer's countdown: decremented if it is not 0 (R215). -/
def tickDown (t : Byte) : Byte := if t = 0x00#8 then t else t - 0x01#8

/-- `tick()` (R215): BUZZER is raised when ST goes from 1 to 0 (R216). -/
def State.tick (s : State) : State :=
  { s with dt := tickDown s.dt, st := tickDown s.st, buzzer := s.buzzer || s.st == 0x01#8 }

/-- The end of a step: the tick runs unless the step raised a fault (R200, R203). -/
def State.endStep (s : State) : State :=
  match s.fault with
  | none => s.tick
  | some _ => s

end Sys2Proof.Machine
end

