-- ==== Sys2Proof/Machine/Operands.lean ====
section
/-! DEFINITION. Operand assembly (30_encoding.md rule R72), the one data addressing mode (42_memory_index.md rule
R146), the values stored by LD B and LD F, and the placement of sprite pixels (43_display.md rules R150 to R152). -/

namespace Sys2Proof.Machine

/-- `zext_16(NNN)` (R72). -/
def zextAddr (nnn : Addr12) : Word := nnn.setWidth 16

/-- `zext_16` of a byte (R8). -/
def zextByte (b : Byte) : Word := b.setWidth 16

/-- The exact address `I + k` (R146), never reduced. -/
def State.dataAddr (s : State) (k : Nat) : Nat := s.i.toNat + k

/-- The exact addresses `I`, `I + 1`, ..., `I + n - 1`, in the order they are accessed (R58). -/
def State.dataAddrs (s : State) (n : Nat) : List Nat := (List.range n).map s.dataAddr

/-- The number of registers `V[0]` to `V[X]` (R144, R145). -/
def regCount (x : Reg) : Nat := x.toNat + 1

/-- `u16(I + n)`, I after an access of `n` bytes by FX55 or FX65 (R144, R145). -/
def State.indexAfter (s : State) (n : Nat) : Word := s.i + BitVec.ofNat 16 n

/-- The glyph address `V[X] * 5`, of all of V[X] (R142, C9). -/
def glyphAddr (b : Byte) : Word := BitVec.ofNat 16 (b.toNat * glyphBytes)

/-- The hundreds, tens and ones of a byte (R143). -/
def bcdDigits (b : Byte) : List Byte :=
  [BitVec.ofNat 8 (b.toNat / 100), BitVec.ofNat 8 (b.toNat / 10 % 10), BitVec.ofNat 8 (b.toNat % 10)]

/-- Column `c` of a sprite row is bit `7 - c`, the most significant bit leftmost (R152). -/
def spriteBit (row : Byte) (c : Nat) : Bool := row.getLsbD (7 - c)

/-- The exact coordinates of the set bits of one row, left to right (R150). -/
def rowPixels (x0 ys : Nat) (row : Byte) : List (Nat × Nat) :=
  ((List.range 8).filter (spriteBit row)).map fun c => (x0 + c, ys)

/-- The exact coordinates of every set bit of a sprite at `(x0, y0)`, row by row (R150). -/
def spritePixels (x0 : Nat) : Nat → List Byte → List (Nat × Nat)
  | _, [] => []
  | y0, row :: rows => rowPixels x0 y0 row ++ spritePixels x0 (y0 + 1) rows

/-- Where a pixel lands (R151). -/
inductive Placed where
  | keep (p : Pixel)
  | drop
  | off (index : Nat)
  deriving DecidableEq, Repr

/-- The cell of exact coordinates on the display. -/
def pixelOf (xs ys : Nat) : Pixel := ⟨Fin.ofNat 64 xs, Fin.ofNat 32 ys⟩

/-- `place(xs, ys)` (R151). -/
def place (policy : DrawEdgePolicy) (xs ys : Nat) : Placed :=
  match policy with
  | .wrap => .keep (pixelOf xs ys)
  | .clip => if xs > 63 ∨ ys > 31 then .drop else .keep (pixelOf xs ys)
  | .fault => if xs > 63 ∨ ys > 31 then .off (ys * 64 + xs) else .keep (pixelOf xs ys)

/-- The hits of a list of pixels, in order; the first pixel off the display under `fault` names the fault (R150,
R151, R207). -/
def placeAll (policy : DrawEdgePolicy) : List (Nat × Nat) → Except FaultCause (List Pixel)
  | [] => .ok []
  | q :: rest =>
    match place policy q.1 q.2 with
    | .off index => .error ⟨.displayOob, some index⟩
    | .drop => placeAll policy rest
    | .keep p =>
      match placeAll policy rest with
      | .error c => .error c
      | .ok hits => .ok (p :: hits)

/-- Every hit cell toggled from its value before the draw (R10, R150). -/
def toggleHits (old : Display) (hits : List Pixel) : Display :=
  hits.foldl (fun d p => Display.setCell d p (cellToggled (Display.cell old p))) old

end Sys2Proof.Machine
end

