-- ==== Sys2Proof/Machine/Flags.lean ====
section
/-! DEFINITION. Every flag the spec gives (10_state.md rule R21) and the commit of a flagged result (41_arithmetic_logic.md
rule R120). -/

namespace Sys2Proof.Machine

/-- A Boolean stored into a register is 0 or 1 (R8). -/
def flagByte (f : Bool) : Byte := if f then 0x01#8 else 0x00#8

/-- Carry of ADD Vx, Vy: the exact sum exceeds 255 (R127). -/
def carryFlag (a b : Byte) : Bool := decide (a.toNat + b.toNat > 255)

/-- NOT borrow of SUB and SUBN, which subtract `vx` from `vy`: 0 when `vx > vy` (R128, R129). -/
def notBorrowFlag (vx vy : Byte) : Bool := !decide (vx.toNat > vy.toNat)

/-- The bit SHR shifts out (R130). -/
def shrFlag (a : Byte) : Bool := a.getLsbD 0

/-- The bit SHL shifts out (R131). -/
def shlFlag (a : Byte) : Bool := a.getLsbD 7

/-- The flag of ADD I, Vx: the exact sum exceeds 0xFFF (R141). -/
def indexFlag (i : Word) (b : Byte) : Bool := decide (i.toNat + b.toNat > 0xFFF)

/-- The collision of a draw: some hit cell was on (R150). -/
def collisionFlag (old : Display) (hits : List Pixel) : Bool := hits.any fun p => cellOn (Display.cell old p)

/-- `V[F] <- f`. -/
def State.setFlag (s : State) (f : Bool) : State := s.setReg regF (flagByte f)

/-- `commit_flagged(d, r, f)` (R120): the order matters when `d` is VF. -/
def State.commitFlagged (s : State) (d : Reg) (r : Byte) (f : Bool) : State :=
  match s.params.flagOrder with
  | .resultThenFlag => (s.setReg d r).setFlag f
  | .flagThenResult => (s.setFlag f).setReg d r

end Sys2Proof.Machine
end

