-- ==== Sys2Proof/Machine/ArithmeticLogic.lean ====
section
/-! DEFINITION. Arithmetic and logic instructions (41_arithmetic_logic.md). -/

namespace Sys2Proof.Machine

/-- LD Vx, NN (R121). -/
def execLdImm (x : Reg) (nn : Byte) (s : State) : Host.Outcome State Fault Refusal :=
  .next (s.setReg x nn).advance

/-- ADD Vx, NN (R123): wraps, no flag. -/
def execAddImm (x : Reg) (nn : Byte) (s : State) : Host.Outcome State Fault Refusal :=
  .next (s.setReg x (s.reg x + nn)).advance

/-- LD Vx, Vy (R122). -/
def execLdReg (x y : Reg) (s : State) : Host.Outcome State Fault Refusal :=
  .next (s.setReg x (s.reg y)).advance

/-- OR Vx, Vy (R124). -/
def execOrReg (x y : Reg) (s : State) : Host.Outcome State Fault Refusal :=
  .next (s.setReg x (s.reg x ||| s.reg y)).advance

/-- AND Vx, Vy (R125). -/
def execAndReg (x y : Reg) (s : State) : Host.Outcome State Fault Refusal :=
  .next (s.setReg x (s.reg x &&& s.reg y)).advance

/-- XOR Vx, Vy (R126). -/
def execXorReg (x y : Reg) (s : State) : Host.Outcome State Fault Refusal :=
  .next (s.setReg x (s.reg x ^^^ s.reg y)).advance

/-- ADD Vx, Vy (R127). -/
def execAddReg (x y : Reg) (s : State) : Host.Outcome State Fault Refusal :=
  .next (s.commitFlagged x (s.reg x + s.reg y) (carryFlag (s.reg x) (s.reg y))).advance

/-- SUB Vx, Vy (R128, C8): Vy - Vx, and the destination is Vy. -/
def execSub (x y : Reg) (s : State) : Host.Outcome State Fault Refusal :=
  .next (s.commitFlagged y (s.reg y - s.reg x) (notBorrowFlag (s.reg x) (s.reg y))).advance

/-- SHR Vx (R130): the field `y` is ignored (R77). -/
def execShr (x _y : Reg) (s : State) : Host.Outcome State Fault Refusal :=
  .next (s.commitFlagged x (s.reg x >>> 1) (shrFlag (s.reg x))).advance

/-- SUBN Vx, Vy (R129): Vy - Vx, and the destination is Vx. -/
def execSubn (x y : Reg) (s : State) : Host.Outcome State Fault Refusal :=
  .next (s.commitFlagged x (s.reg y - s.reg x) (notBorrowFlag (s.reg x) (s.reg y))).advance

/-- SHL Vx (R131): the field `y` is ignored (R77). -/
def execShl (x _y : Reg) (s : State) : Host.Outcome State Fault Refusal :=
  .next (s.commitFlagged x (s.reg x <<< 1) (shlFlag (s.reg x))).advance

/-- RND Vx, NN (R132): a fresh draw of RAND (R33), masked. -/
def execRnd (x : Reg) (nn : Byte) (s : State) : Host.Outcome State Fault Refusal :=
  .next { s.setReg x (Config.rand s.draws &&& nn) with draws := s.draws + 1 }.advance

end Sys2Proof.Machine
end

