-- ==== Sys2Proof/Machine/ControlFlow.lean ====
section
/-! DEFINITION. Control flow instructions (40_control_flow.md). -/

namespace Sys2Proof.Machine

/-- CLS (R100). -/
def execCls (s : State) : Host.Outcome State Fault Refusal :=
  .next { s with display := displayClear, clearReq := true }.advance

/-- RET (R101): the popped entry is the CALL's own address. -/
def execRet (s : State) : Host.Outcome State Fault Refusal :=
  s.complete (encode .ret) <|
    if s.sp.val = 0 then .error ⟨.stackUnderflow, none⟩
    else .ok (s.pop.setPc (s.stackAt (s.sp.val - 1) + 2#16))

/-- SYS NNN (R109): always UNSUPPORTED_SYS. -/
def execSys (nnn : Addr12) (s : State) : Host.Outcome State Fault Refusal :=
  s.complete (encode (.sys nnn)) (.error ⟨.unsupportedSys, none⟩)

/-- JP NNN (R102). -/
def execJp (nnn : Addr12) (s : State) : Host.Outcome State Fault Refusal :=
  .next (s.setPc (zextAddr nnn))

/-- CALL NNN (R103): pushes its own address. -/
def execCall (nnn : Addr12) (s : State) : Host.Outcome State Fault Refusal :=
  s.complete (encode (.call nnn)) <|
    if s.sp.val = stackDepth then .error ⟨.stackOverflow, none⟩
    else .ok ((s.push s.pc).setPc (zextAddr nnn))

/-- SE Vx, NN (R104). -/
def execSeImm (x : Reg) (nn : Byte) (s : State) : Host.Outcome State Fault Refusal :=
  .next (s.skipIf (s.reg x == nn))

/-- SNE Vx, NN (R106). -/
def execSneImm (x : Reg) (nn : Byte) (s : State) : Host.Outcome State Fault Refusal :=
  .next (s.skipIf (s.reg x != nn))

/-- SE Vx, Vy (R105). -/
def execSeReg (x y : Reg) (s : State) : Host.Outcome State Fault Refusal :=
  .next (s.skipIf (s.reg x == s.reg y))

/-- SNE Vx, Vy (R107). -/
def execSneReg (x y : Reg) (s : State) : Host.Outcome State Fault Refusal :=
  .next (s.skipIf (s.reg x != s.reg y))

/-- JP V0, NNN (R108): the exact sum, no 12-bit mask. -/
def execJpV0 (nnn : Addr12) (s : State) : Host.Outcome State Fault Refusal :=
  .next (s.setPc (zextAddr nnn + zextByte (s.reg reg0)))

end Sys2Proof.Machine
end

