-- ==== Sys2Proof/Machine/DisplayDraw.lean ====
section
/-! DEFINITION. The sprite draw and its collision detector (43_display.md). -/

namespace Sys2Proof.Machine

/-- The hits of the sprite of `n` rows at `(V[x], V[y])` (R150): the rows are read first, then the pixels placed. -/
def State.spriteHits (s : State) (x y : Reg) (n : Count) : Except FaultCause (List Pixel) :=
  match s.memReadAll (s.dataAddrs n.toNat) with
  | .error c => .error c
  | .ok rows => placeAll s.params.drawEdge (spritePixels (s.reg x).toNat (s.reg y).toNat rows)

/-- DRW Vx, Vy, N (R150). -/
def execDrw (x y : Reg) (n : Count) (s : State) : Host.Outcome State Fault Refusal :=
  s.complete (encode (.drw x y n)) <|
    match s.spriteHits x y n with
    | .error c => .error c
    | .ok hits =>
      .ok ({ s with display := toggleHits s.display hits }.setFlag (collisionFlag s.display hits)).advance

end Sys2Proof.Machine
end

