-- ==== Sys2Proof/Machine/Input.lean ====
section
/-! DEFINITION. Input instructions (44_input.md). -/

namespace Sys2Proof.Machine

/-- The key index `V[x]`, or KEY_INDEX_OOB when it is above 15 (R160, R161). -/
def State.keyIndex (s : State) (x : Reg) : Except FaultCause Nat :=
  if (s.reg x).toNat > 15 then .error ⟨.keyIndexOob, some (s.reg x).toNat⟩ else .ok (s.reg x).toNat

/-- SKP Vx (R160). -/
def execSkp (x : Reg) (s : State) : Host.Outcome State Fault Refusal :=
  s.complete (encode (.skp x)) <|
    match s.keyIndex x with
    | .error c => .error c
    | .ok k => .ok (s.skipIf (s.keyDown k))

/-- SKNP Vx (R161). -/
def execSknp (x : Reg) (s : State) : Host.Outcome State Fault Refusal :=
  s.complete (encode (.sknp x)) <|
    match s.keyIndex x with
    | .error c => .error c
    | .ok k => .ok (s.skipIf (!s.keyDown k))

/-- LD Vx, K (R162): with no key pressed the instruction completes and PC stays. -/
def execLdVxK (x : Reg) (s : State) : Host.Outcome State Fault Refusal :=
  match s.highestKeyBelow numKeys with
  | none => .next s
  | some k => .next (s.setReg x (BitVec.ofNat 8 k)).advance

end Sys2Proof.Machine
end

