-- ==== Sys2Proof/Machine/MemoryIndex.lean ====
section
/-! DEFINITION. Memory and index instructions (42_memory_index.md). -/

namespace Sys2Proof.Machine

/-- LD I, NNN (R140). -/
def execLdI (nnn : Addr12) (s : State) : Host.Outcome State Fault Refusal :=
  .next (s.setI (zextAddr nnn)).advance

/-- ADD I, Vx (R141): the flag compares the exact sum with 0xFFF, I wraps at 16 bits. -/
def execAddI (x : Reg) (s : State) : Host.Outcome State Fault Refusal :=
  .next ((s.setFlag (indexFlag s.i (s.reg x))).setI (s.i + zextByte (s.reg x))).advance

/-- LD F, Vx (R142). -/
def execLdF (x : Reg) (s : State) : Host.Outcome State Fault Refusal :=
  .next (s.setI (glyphAddr (s.reg x))).advance

/-- LD B, Vx (R143): the three writes are checked before the first is made. -/
def execLdB (x : Reg) (s : State) : Host.Outcome State Fault Refusal :=
  s.complete (encode (.ldB x)) <|
    match s.checkWriteAll (s.dataAddrs 3) with
    | .error c => .error c
    | .ok () => .ok (s.storeBytes (s.dataAddr 0) (bcdDigits (s.reg x))).advance

/-- LD [I], Vx (R144). -/
def execLdMemVx (x : Reg) (s : State) : Host.Outcome State Fault Refusal :=
  s.complete (encode (.ldMemVx x)) <|
    match s.checkWriteAll (s.dataAddrs (regCount x)) with
    | .error c => .error c
    | .ok () =>
      .ok ((s.storeBytes (s.dataAddr 0) (s.regBytes (regCount x))).setI (s.indexAfter (regCount x))).advance

/-- LD Vx, [I] (R145). -/
def execLdVxMem (x : Reg) (s : State) : Host.Outcome State Fault Refusal :=
  s.complete (encode (.ldVxMem x)) <|
    match s.memReadAll (s.dataAddrs (regCount x)) with
    | .error c => .error c
    | .ok bs => .ok ((s.loadRegs bs).setI (s.indexAfter (regCount x))).advance

end Sys2Proof.Machine
end

