-- ==== Sys2Proof/Machine/Step.lean ====
section
/-! DEFINITION. The step driver (60_exceptions.md rules R200 to R207). -/

namespace Sys2Proof.Machine

/-- Execute the decoded instruction and end the step (R200, R202). -/
def State.runInstr (s : State) (i : Instr) : Host.Outcome State Fault Refusal :=
  match exec i s with
  | .next t => .next t.endStep
  | .fault r => .fault r
  | .refused r => .refused r

/-- Decode the fetched word and run it; UNKNOWN(w) takes UNKNOWN_INSTRUCTION (R75, R200). -/
def State.runWord (s : State) (w : Word) : Host.Outcome State Fault Refusal :=
  match decode w with
  | .ok i => s.runInstr i
  | .error _ => .next (s.takeFault ⟨.unknownInstruction, none⟩ (some w))

/-- One step of a core that has not faulted, its outputs already 0: fetch, decode, execute, tick (R200, R202, R207). -/
def State.runStep (s : State) : Host.Outcome State Fault Refusal :=
  match s.fetch with
  | .ok w => s.runWord w
  | .error c => .next (s.takeFault c none)

/-- `step()` (R200). A core whose FAULT is set has stopped: the step reports the record and changes nothing (R206).
Otherwise it runs one instruction; a fault it raises is taken, as a next state (R203, R208). -/
def step (s : State) : Host.Outcome State Fault Refusal :=
  match s.fault with
  | some r => .fault (.stopped r)
  | none => s.clearOutputs.runStep

/-- `s` with the word of the opcode table's bits `w` stored at PC, big-endian (R56), as a load of the program would
have left it (R252); where PC is above 0xFFE no word can stand there and `s` is unchanged. -/
def State.withFetchWord (s : State) (nbits w : Nat) : State :=
  if s.pc.toNat > 0xFFE then s
  else s.storeBytes s.pc.toNat [highByte (tableWord nbits w), lowByte (tableWord nbits w)]

end Sys2Proof.Machine
end

