-- ==== Sys2Proof/Machine/HostInterface.lean ====
section
/-! DEFINITION. The host interface (60_exceptions.md rules R201, R225; 70_reset_and_hazards.md rules R250 to R253): the
operations beside `step`, on the core's state, and the host's session, which keeps their allowed order. -/

namespace Sys2Proof.Machine

/-! ## Operations on the core -/

/-- The first reset of a new instance with parameters `p` (R250): everything 0, FONT at 0x000, PC at PROG_BASE, FAULT
none. Its count of draws is that of `State.reset`, the model's choice (log entry 4). -/
def State.resetWith (p : Params) : State :=
  { State.reset with params := p, mem := Memory.writeBytes [] 0 p.font.toList }

/-- The reset operation on a running or faulted core: the instance's parameters stay (R6, R250). The random source is
no state of the core (R33), so reset leaves the count of draws alone and RND goes on drawing fresh bytes: the model's
choice, log entry 4. -/
def State.hostReset (s : State) : State := { State.resetWith s.params with draws := s.draws }

/-- What the host reads a program from (R252, R253). -/
inductive ProgramSource where
  /-- The image, read cleanly to its end. -/
  | image (bytes : List Byte)
  /-- The source cannot be read. -/
  | unreadable
  /-- The stream fails after some bytes. -/
  | failedMidRead (bytes : List Byte)
  deriving DecidableEq, Repr

/-- `load(image)` (R252): the image at 0x200, or LOAD_ERROR (R253). FONT_WRITE_POLICY is not consulted. -/
def State.load (s : State) : ProgramSource → Except FaultCode State
  | .image bytes => if bytes.length > progMax then .error .loadError else .ok (s.storeBytes progBase bytes)
  | .unreadable => .error .loadError
  | .failedMidRead _ => .error .loadError

/-- Write keys (R225, R28). -/
def State.writeKeys (s : State) (keys : Vector Bool 16) : State := { s with keys := keys }

/-- Read display (R225, R29): the 2048 cells, cell (x, y) at index `y * 64 + x`. -/
def State.readDisplay (s : State) : List Byte := (s.display.toList.map Vector.toList).flatten

/-- The result of a step (R201). -/
inductive StepResult where
  | ok (buzzer clearReq : Bool)
  | faulted (record : FaultRecord)
  deriving DecidableEq, Repr

/-- The result the step that led to this state returned (R200, R201): FAULT's record if it is set, else Ok with the
step's outputs. -/
def State.stepResult (s : State) : StepResult :=
  match s.fault with
  | some r => .faulted r
  | none => .ok s.buzzer s.clearReq

/-- The code numbers of R205. -/
def faultNumber : FaultCode → Nat
  | .unknownInstruction => 1
  | .unsupportedSys => 2
  | .stackOverflow => 3
  | .stackUnderflow => 4
  | .memReadOob => 5
  | .memWriteOob => 6
  | .fontWrite => 7
  | .fetchOob => 8
  | .misalignedFetch => 9
  | .keyIndexOob => 10
  | .displayOob => 11
  | .loadError => 12

/-! ## The session -/

/-- How far the host has come since reset (R252, R253). -/
inductive Phase where
  /-- After reset: load and step are allowed. -/
  | fresh
  /-- After a load: step is allowed, a second load is not. -/
  | loaded
  /-- After a step: load is not allowed. -/
  | running
  /-- After LOAD_ERROR: only reset is allowed. -/
  | ended
  deriving DecidableEq, Repr

/-- A core and the phase its host is in. -/
structure Session where
  core : State
  phase : Phase
  deriving DecidableEq, Repr

/-- A session as it begins: an instance with parameters `p` is reset (R250). -/
def Session.start (p : Params) : Session := ⟨State.resetWith p, .fresh⟩

/-- Reset (R225): allowed at any time, the only way out of a fault or of LOAD_ERROR (R206, R253). -/
def Session.reset (h : Session) : Session := ⟨h.core.hostReset, .fresh⟩

/-- Load (R225, R252): at most once per reset and before the first step; `true` is ok and `false` is LOAD_ERROR. -/
def Session.load (h : Session) (src : ProgramSource) : Except Refusal (Session × Bool) :=
  match h.phase with
  | .fresh =>
    match h.core.load src with
    | .ok s => .ok (⟨s, .loaded⟩, true)
    | .error _ => .ok (⟨h.core, .ended⟩, false)
  | .loaded => .error .loadNotAllowed
  | .running => .error .loadNotAllowed
  | .ended => .error .sessionEnded

/-- Step (R225): the session moves on and the host gets the result. A stopped core returns its record again and
nothing changes (R206). -/
def Session.step (h : Session) : Except Refusal (Session × StepResult) :=
  match h.phase with
  | .ended => .error .sessionEnded
  | .fresh | .loaded | .running =>
    match Sys2Proof.Machine.step h.core with
    | .next t => .ok (⟨t, .running⟩, t.stepResult)
    | .fault (.stopped r) => .ok (⟨h.core, .running⟩, .faulted r)
    | .refused r => .error r

/-- Write keys (R225): between steps, the only write the host makes (D26). -/
def Session.writeKeys (h : Session) (keys : Vector Bool 16) : Except Refusal Session :=
  match h.phase with
  | .ended => .error .sessionEnded
  | .fresh | .loaded | .running => .ok ⟨h.core.writeKeys keys, h.phase⟩

/-- Read display (R225): read-only. An ended session answers nothing but reset (R253). -/
def Session.readDisplay (h : Session) : Except Refusal (List Byte) :=
  match h.phase with
  | .ended => .error .sessionEnded
  | .fresh | .loaded | .running => .ok h.core.readDisplay

/-- Read state (R225, R229): read-only, for diagnostics. After LOAD_ERROR the memory is not specified (R253, U18), so
the state is not given out. -/
def Session.readState (h : Session) : Except Refusal State :=
  match h.phase with
  | .ended => .error .sessionEnded
  | .fresh | .loaded | .running => .ok h.core

end Sys2Proof.Machine
end

