-- ==== Sys2Proof/Safety.lean ====
section
/-! DEFINITION. The terms claims are stated in: what a step leaves unchanged, what taking a fault means, the invariant
of the machine, which registers an instruction reads and writes, where a sprite lands, and the ends of a run. -/

namespace Sys2Proof.Machine

/-! ## Frames -/

/-- What an instruction may change beside PC. Everything not named stays. -/
structure Footprint where
  /-- General registers that may change. -/
  regs : Reg → Prop := fun _ => False
  /-- I may change. -/
  index : Prop := False
  /-- SP may change. -/
  sp : Prop := False
  /-- Stack entries that may change. -/
  entries : Nat → Prop := fun _ => False
  /-- DT may change. -/
  dt : Prop := False
  /-- ST may change. -/
  st : Prop := False
  /-- Display cells that may change. -/
  cells : Pixel → Prop := fun _ => False
  /-- Addresses whose byte may change. -/
  bytes : Nat → Prop := fun _ => False
  /-- CLEAR_REQ may change. -/
  clearReq : Prop := False
  /-- The count of RND's draws may change. -/
  draws : Prop := False

/-- `t` differs from `s` in PC and in what `f` names, and in nothing else. The key flags, FAULT, BUZZER and the
parameters stay whatever `f` is. -/
structure Unchanged (f : Footprint) (s t : State) : Prop where
  regs : ∀ r, ¬ f.regs r → t.reg r = s.reg r
  index : ¬ f.index → t.i = s.i
  sp : ¬ f.sp → t.sp = s.sp
  entries : ∀ k, ¬ f.entries k → t.stackAt k = s.stackAt k
  dt : ¬ f.dt → t.dt = s.dt
  st : ¬ f.st → t.st = s.st
  cells : ∀ p, ¬ f.cells p → Display.cell t.display p = Display.cell s.display p
  bytes : ∀ a, ¬ f.bytes a → t.byteAt a = s.byteAt a
  clearReq : ¬ f.clearReq → t.clearReq = s.clearReq
  draws : ¬ f.draws → t.draws = s.draws
  keys : ∀ k, t.keyDown k = s.keyDown k
  fault : t.fault = s.fault
  buzzer : t.buzzer = s.buzzer
  params : t.params = s.params

/-- Instruction `i` takes a fault at `s` (60_exceptions.md rules R203, R208): FAULT holds exactly the record, both
outputs are 0, and nothing else changes. -/
def TakesFault (i : Instr) (s : State) (r : FaultRecord) : Prop :=
  exec i s = .next { s with fault := some r, buzzer := false, clearReq := false }

/-! ## The invariant -/

/-- What every step keeps, and reset, load and key writes establish or keep. -/
structure State.Inv (s : State) : Prop where
  /-- Memory is canonical and inside 0x000 to 0xFFF. -/
  mem : s.mem.wf = true
  /-- Every display cell holds 0 or 1 (R29). -/
  cells : ∀ p, Display.cell s.display p = 0x00#8 ∨ Display.cell s.display p = 0x01#8
  /-- PC holds at most 0x10FE, the largest value an instruction can write (R24). -/
  pc : s.pc.toNat ≤ 0x10FE
  /-- Every live stack entry is the address of a fetched CALL, at most 0xFFE (R101), and even where an odd fetch
  faults. -/
  calls : ∀ k, k < s.sp.val →
    (s.stackAt k).toNat ≤ 0xFFE ∧ (s.params.oddPc = .fault → (s.stackAt k).toNat % 2 = 0)
  /-- A faulted core shows neither output (R200). -/
  outputs : s.fault ≠ none → s.buzzer = false ∧ s.clearReq = false

/-! ## What runs -/

/-- The next step of `s` fetches `w` and executes `i` (R200). -/
def State.Executes (s : State) (w : Word) (i : Instr) : Prop :=
  s.fault = none ∧ s.fetch = .ok w ∧ decode w = .ok i

/-- LD DT, Vx and LD ST, Vx, the instructions that write a timer (R27). -/
def writesTimer : Instr → Prop
  | .ldDtVx _ => True
  | .ldStVx _ => True
  | _ => False

/-- `k` consecutive non-faulting steps, none of which executes a timer-writing instruction (R217). -/
inductive QuietRun : Nat → State → State → Prop
  | zero (s : State) : QuietRun 0 s s
  | succ {k : Nat} {s t u : State} {w : Word} {i : Instr} (he : s.Executes w i) (hi : ¬ writesTimer i)
      (hs : step s = .next t) (hf : t.fault = none) (hr : QuietRun k t u) : QuietRun (k + 1) s u

/-- The column "reads" of 10_state.md rule R22. -/
def readsReg (r : Reg) : Instr → Prop
  | .seImm x _ | .sneImm x _ | .addImm x _ | .shr x _ | .shl x _ => r = x
  | .skp x | .sknp x | .ldDtVx x | .ldStVx x | .addI x | .ldF x | .ldB x => r = x
  | .seReg x y | .sneReg x y | .orReg x y | .andReg x y | .xorReg x y | .addReg x y | .sub x y | .subn x y => r = x ∨ r = y
  | .drw x y _ => r = x ∨ r = y
  | .ldReg _ y => r = y
  | .jpV0 _ => r = reg0
  | .ldMemVx x => r.toNat ≤ x.toNat
  | .cls | .ret | .sys _ | .jp _ | .call _ | .ldImm _ _ | .ldI _ | .rnd _ _ | .ldVxDt _ | .ldVxK _ | .ldVxMem _ => False

/-- The column "writes" of 10_state.md rule R22. -/
def writesReg (r : Reg) : Instr → Prop
  | .ldImm x _ | .addImm x _ | .ldReg x _ | .orReg x _ | .andReg x _ | .xorReg x _ | .rnd x _ => r = x
  | .ldVxDt x | .ldVxK x => r = x
  | .addReg x _ | .shr x _ | .shl x _ | .subn x _ => r = x ∨ r = regF
  | .sub _ y => r = y ∨ r = regF
  | .drw _ _ _ | .addI _ => r = regF
  | .ldVxMem x => r.toNat ≤ x.toNat
  | .cls | .ret | .sys _ | .jp _ | .call _ | .seImm _ _ | .sneImm _ _ | .seReg _ _ | .sneReg _ _ | .ldI _
  | .jpV0 _ | .skp _ | .sknp _ | .ldDtVx _ | .ldStVx _ | .ldF _ | .ldB _ | .ldMemVx _ => False

/-! ## Sprites -/

/-- Bit of row `r`, column `c`, of the sprite at I: column 0 is the most significant bit (R150, R152). -/
def State.spriteSet (s : State) (r c : Nat) : Prop := (s.byteAt (s.dataAddr r)).getLsbD (7 - c) = true

/-- The exact column of sprite column `c` drawn at `V[x]` (R151). -/
def State.spriteX (s : State) (x : Reg) (c : Nat) : Nat := (s.reg x).toNat + c

/-- The exact row of sprite row `r` drawn at `V[y]` (R151). -/
def State.spriteY (s : State) (y : Reg) (r : Nat) : Nat := (s.reg y).toNat + r

/-- The pixel of exact coordinates `(xs, ys)` is drawn on cell `p` (R151). -/
def Lands (policy : DrawEdgePolicy) (xs ys : Nat) (p : Pixel) : Prop :=
  match policy with
  | .wrap => p.x.val = xs % 64 ∧ p.y.val = ys % 32
  | .clip => p.x.val = xs ∧ p.y.val = ys
  | .fault => p.x.val = xs ∧ p.y.val = ys

/-- DRW Vx, Vy, N at `s` hits cell `p`: a set bit of the sprite lands there (R150). -/
def State.Hits (s : State) (x y : Reg) (n : Count) (p : Pixel) : Prop :=
  ∃ r c, r < n.toNat ∧ c < 8 ∧ s.spriteSet r c ∧ Lands s.params.drawEdge (s.spriteX x c) (s.spriteY y r) p

/-- Every sprite row of DRW lies in memory (R150). -/
def State.SpriteReadable (s : State) (n : Count) : Prop := s.dataAddr n.toNat ≤ memSize ∨ n = 0

/-- Where an off-display pixel faults, every set bit lies on the display (R151). -/
def State.SpritePlaceable (s : State) (x y : Reg) (n : Count) : Prop :=
  s.params.drawEdge = .fault → ∀ r c, r < n.toNat → c < 8 → s.spriteSet r c →
    s.spriteX x c ≤ 63 ∧ s.spriteY y r ≤ 31

/-! ## The ends of a run (70_reset_and_hazards.md rule R263) -/

/-- (a) The last step faulted. -/
def State.FaultedEnd (s : State) : Prop := s.fault ≠ none

/-- (b) The word at PC is a self-jump: JP NNN with NNN the instruction's own address. -/
def State.IdleEnd (s : State) : Prop := ∃ w nnn, s.Executes w (.jp nnn) ∧ zextAddr nnn = s.pc

/-- (c) The word at PC is LD Vx, K and no key flag is set. -/
def State.WaitingEnd (s : State) : Prop := (∃ w x, s.Executes w (.ldVxK x)) ∧ ∀ k, s.keyDown k = false

/-- A run of `k` steps from `s` is safe: no step of it faults. -/
def SafeRun (k : Nat) (s : State) : Prop :=
  ∀ j, j ≤ k → ∃ t, Host.Core.run Sys2Proof.core j s = .next t ∧ t.fault = none

end Sys2Proof.Machine
end

