-- ==== Sys2Proof/Certificates/Slice0/Obligations.lean ====
section
/-! DEFINITION. The statements for the provers. Each docstring names the rule of spec/ it formalises. Where a statement
says which word decodes to an instruction, it rests on the patterns of 30_encoding.md rule R74, which the spec marks as
general knowledge (log entry 9). -/

open Sys2Proof Sys2Proof.Machine

/-! ## Encoding -/

/-- Every well-formed instruction is read back from its own word, every operand at every value (30_encoding.md rules
R71 to R77). -/
def Obligations.DecodeOfEncode : Prop :=
  ∀ i : Instr, i.wf = true → decode (encode i) = .ok i

/-- Every word that decodes is the word of the instruction it decodes to, which is well-formed: no bit of a word is
dropped, the ignored Y field of SHR and SHL included (30_encoding.md rules R73, R77, R80). -/
def Obligations.EncodeOfDecode : Prop :=
  ∀ (w : Word) (i : Instr), decode w = .ok i → encode i = w ∧ i.wf = true

/-- The unknown words are exactly those of R75's table (without its counts), and a step that fetches one takes
UNKNOWN_INSTRUCTION with the word and its PC and changes nothing else. -/
def Obligations.UnknownWordsExactly : Prop :=
  (∀ w : Word, (∀ i, decode w ≠ .ok i) ↔
      (fieldOp w = 0x5#4 ∧ fieldN w ≠ 0x0#4) ∨
      (fieldOp w = 0x8#4 ∧ fieldN w ∈ [0x8#4, 0x9#4, 0xA#4, 0xB#4, 0xC#4, 0xD#4, 0xF#4]) ∨
      (fieldOp w = 0x9#4 ∧ fieldN w ≠ 0x0#4) ∨
      (fieldOp w = 0xE#4 ∧ fieldNN w ≠ 0x9E#8 ∧ fieldNN w ≠ 0xA1#8) ∨
      (fieldOp w = 0xF#4 ∧
        fieldNN w ∉ [0x07#8, 0x0A#8, 0x15#8, 0x18#8, 0x1E#8, 0x29#8, 0x33#8, 0x55#8, 0x65#8])) ∧
  (∀ (s : State) (w : Word), s.fault = none → s.fetch = .ok w → (∀ i, decode w ≠ .ok i) →
    step s = .next { s with fault := some ⟨.unknownInstruction, s.pc, some w, none⟩, buzzer := false, clearReq := false })

/-- The spec's own example words, one per family: the source's 0x600A, 0x7005 and 0xA200 (R121, R123, R140), and
0x2300, 0x8105, 0xD015, 0xE49E, 0xF118 of 95_test_vectors.md. A sanity statement. -/
def Obligations.ExampleWordsDecode : Prop :=
  decode 0x600A#16 = .ok (.ldImm 0x0#4 0x0A#8) ∧ decode 0x7005#16 = .ok (.addImm 0x0#4 0x05#8) ∧
  decode 0xA200#16 = .ok (.ldI 0x200#12) ∧ decode 0x2300#16 = .ok (.call 0x300#12) ∧
  decode 0x8105#16 = .ok (.sub 0x1#4 0x0#4) ∧ decode 0xD015#16 = .ok (.drw 0x0#4 0x1#4 0x5#4) ∧
  decode 0xE49E#16 = .ok (.skp 0x4#4) ∧ decode 0xF118#16 = .ok (.ldStVx 0x1#4)

/-! ## Control flow -/

/-- CLS (R100). -/
def Obligations.ClearScreen : Prop :=
  decode 0x00E0#16 = .ok .cls ∧
  ∀ s : State, ∃ t, exec .cls s = .next t ∧ (∀ p, Display.cell t.display p = 0x00#8) ∧ t.clearReq = true ∧
    t.pc = s.pc + 2#16 ∧ Unchanged { cells := fun _ => True, clearReq := True } s t

/-- RET (R101): the popped entry plus 2; an empty stack faults. -/
def Obligations.ReturnPopsStack : Prop :=
  decode 0x00EE#16 = .ok .ret ∧
  (∀ s : State, s.sp.val ≠ 0 → ∃ t, exec .ret s = .next t ∧ t.sp.val = s.sp.val - 1 ∧
    t.pc = s.stackAt (s.sp.val - 1) + 2#16 ∧ Unchanged { sp := True } s t) ∧
  (∀ s : State, s.sp.val = 0 → TakesFault .ret s ⟨.stackUnderflow, s.pc, some 0x00EE#16, none⟩)

/-- SYS NNN (R109): always UNSUPPORTED_SYS, whose entry is the instruction's own effect. -/
def Obligations.SysFaults : Prop :=
  ∀ nnn : Addr12, nnn ≠ 0x0E0#12 → nnn ≠ 0x0EE#12 →
    decode (packNNN 0x0#4 nnn) = .ok (.sys nnn) ∧
    ∀ s : State, TakesFault (.sys nnn) s ⟨.unsupportedSys, s.pc, some (packNNN 0x0#4 nnn), none⟩

/-- JP NNN (R102): the exact 12-bit target, not checked at the jump. -/
def Obligations.JumpSetsPc : Prop :=
  ∀ nnn : Addr12, decode (packNNN 0x1#4 nnn) = .ok (.jp nnn) ∧
    ∀ s : State, ∃ t, exec (.jp nnn) s = .next t ∧ t.pc.toNat = nnn.toNat ∧ Unchanged {} s t

/-- CALL NNN (R103): pushes its own address; the 17th nested call faults. -/
def Obligations.CallPushesOwnAddress : Prop :=
  ∀ nnn : Addr12, decode (packNNN 0x2#4 nnn) = .ok (.call nnn) ∧
    (∀ s : State, s.sp.val ≠ 16 → ∃ t, exec (.call nnn) s = .next t ∧ t.stackAt s.sp.val = s.pc ∧
      t.sp.val = s.sp.val + 1 ∧ t.pc.toNat = nnn.toNat ∧
      Unchanged { sp := True, entries := fun k => k = s.sp.val } s t) ∧
    (∀ s : State, s.sp.val = 16 →
      TakesFault (.call nnn) s ⟨.stackOverflow, s.pc, some (packNNN 0x2#4 nnn), none⟩)

/-- SE Vx, NN and SE Vx, Vy (R104, R105): 5XYn with n ≠ 0 is unknown. -/
def Obligations.SkipIfEqual : Prop :=
  (∀ (x : Reg) (nn : Byte), decode (packXNN 0x3#4 x nn) = .ok (.seImm x nn) ∧
    ∀ s : State, ∃ t, exec (.seImm x nn) s = .next t ∧
      t.pc = (if s.reg x = nn then s.pc + 4#16 else s.pc + 2#16) ∧ Unchanged {} s t) ∧
  (∀ (x y : Reg) (n : BitVec 4), decode (packXYN 0x5#4 x y n) =
      (if n = 0x0#4 then .ok (.seReg x y) else .error (.unknown (packXYN 0x5#4 x y n)))) ∧
  (∀ (x y : Reg) (s : State), ∃ t, exec (.seReg x y) s = .next t ∧
      t.pc = (if s.reg x = s.reg y then s.pc + 4#16 else s.pc + 2#16) ∧ Unchanged {} s t)

/-- SNE Vx, NN and SNE Vx, Vy (R106, R107): 9XYn with n ≠ 0 is unknown. -/
def Obligations.SkipIfNotEqual : Prop :=
  (∀ (x : Reg) (nn : Byte), decode (packXNN 0x4#4 x nn) = .ok (.sneImm x nn) ∧
    ∀ s : State, ∃ t, exec (.sneImm x nn) s = .next t ∧
      t.pc = (if s.reg x ≠ nn then s.pc + 4#16 else s.pc + 2#16) ∧ Unchanged {} s t) ∧
  (∀ (x y : Reg) (n : BitVec 4), decode (packXYN 0x9#4 x y n) =
      (if n = 0x0#4 then .ok (.sneReg x y) else .error (.unknown (packXYN 0x9#4 x y n)))) ∧
  (∀ (x y : Reg) (s : State), ∃ t, exec (.sneReg x y) s = .next t ∧
      t.pc = (if s.reg x ≠ s.reg y then s.pc + 4#16 else s.pc + 2#16) ∧ Unchanged {} s t)

/-- JP V0, NNN (R108): the exact sum, no 12-bit mask. -/
def Obligations.JumpPlusV0 : Prop :=
  ∀ nnn : Addr12, decode (packNNN 0xB#4 nnn) = .ok (.jpV0 nnn) ∧
    ∀ s : State, ∃ t, exec (.jpV0 nnn) s = .next t ∧ t.pc.toNat = nnn.toNat + (s.reg 0x0#4).toNat ∧
      Unchanged {} s t

/-! ## Arithmetic and logic -/

/-- LD Vx, NN and LD Vx, Vy (R121, R122). -/
def Obligations.LoadRegister : Prop :=
  (∀ (x : Reg) (nn : Byte), decode (packXNN 0x6#4 x nn) = .ok (.ldImm x nn) ∧
    ∀ s : State, ∃ t, exec (.ldImm x nn) s = .next t ∧ t.reg x = nn ∧ t.pc = s.pc + 2#16 ∧
      Unchanged { regs := (· = x) } s t) ∧
  (∀ x y : Reg, decode (packXYN 0x8#4 x y 0x0#4) = .ok (.ldReg x y) ∧
    ∀ s : State, ∃ t, exec (.ldReg x y) s = .next t ∧ t.reg x = s.reg y ∧ t.pc = s.pc + 2#16 ∧
      Unchanged { regs := (· = x) } s t)

/-- ADD Vx, NN (R123): wraps modulo 256 and leaves VF alone, unless X is 15. -/
def Obligations.AddImmediateWraps : Prop :=
  ∀ (x : Reg) (nn : Byte), decode (packXNN 0x7#4 x nn) = .ok (.addImm x nn) ∧
    ∀ s : State, ∃ t, exec (.addImm x nn) s = .next t ∧
      (t.reg x).toNat = ((s.reg x).toNat + nn.toNat) % 256 ∧ t.pc = s.pc + 2#16 ∧
      Unchanged { regs := (· = x) } s t

/-- OR, AND, XOR Vx, Vy (R124, R125, R126), bit by bit. -/
def Obligations.BitwiseLogic : Prop :=
  ∀ x y : Reg,
    decode (packXYN 0x8#4 x y 0x1#4) = .ok (.orReg x y) ∧
    decode (packXYN 0x8#4 x y 0x2#4) = .ok (.andReg x y) ∧
    decode (packXYN 0x8#4 x y 0x3#4) = .ok (.xorReg x y) ∧
    ∀ s : State,
      (∃ t, exec (.orReg x y) s = .next t ∧
        (∀ k, (t.reg x).getLsbD k = ((s.reg x).getLsbD k || (s.reg y).getLsbD k)) ∧ t.pc = s.pc + 2#16 ∧
        Unchanged { regs := (· = x) } s t) ∧
      (∃ t, exec (.andReg x y) s = .next t ∧
        (∀ k, (t.reg x).getLsbD k = ((s.reg x).getLsbD k && (s.reg y).getLsbD k)) ∧ t.pc = s.pc + 2#16 ∧
        Unchanged { regs := (· = x) } s t) ∧
      (∃ t, exec (.xorReg x y) s = .next t ∧
        (∀ k, (t.reg x).getLsbD k = ((s.reg x).getLsbD k ^^ (s.reg y).getLsbD k)) ∧ t.pc = s.pc + 2#16 ∧
        Unchanged { regs := (· = x) } s t)

/-- `commit_flagged` (R120): both writes land when the destination is not VF; when it is VF, VF ends as the flag under
`result_then_flag` and as the result under `flag_then_result`. -/
def Obligations.FlagCommitOrder : Prop :=
  ∀ (s : State) (d : Reg) (r : Byte) (f : Bool),
    (d ≠ regF → (s.commitFlagged d r f).reg d = r ∧ (s.commitFlagged d r f).reg regF = flagByte f) ∧
    (s.params.flagOrder = .resultThenFlag → (s.commitFlagged regF r f).reg regF = flagByte f) ∧
    (s.params.flagOrder = .flagThenResult → (s.commitFlagged regF r f).reg regF = r) ∧
    (∀ q, q ≠ d → q ≠ regF → (s.commitFlagged d r f).reg q = s.reg q)

/-- ADD Vx, Vy (R127): the sum modulo 256 and the carry, for X = Y, Y = 15 and X = 15, under both values of
FLAG_ORDER. -/
def Obligations.AddWithCarry : Prop :=
  ∀ x y : Reg, decode (packXYN 0x8#4 x y 0x4#4) = .ok (.addReg x y) ∧
    ∀ s : State, ∃ t, exec (.addReg x y) s = .next t ∧ t.pc = s.pc + 2#16 ∧
      (x ≠ regF ∨ s.params.flagOrder = .flagThenResult →
        (t.reg x).toNat = ((s.reg x).toNat + (s.reg y).toNat) % 256) ∧
      (x ≠ regF ∨ s.params.flagOrder = .resultThenFlag →
        (t.reg regF).toNat = if (s.reg x).toNat + (s.reg y).toNat > 255 then 1 else 0) ∧
      Unchanged { regs := fun q => q = x ∨ q = regF } s t

/-- SUB Vx, Vy (R128): Vy - Vx modulo 256 into Vy, VF the NOT borrow. -/
def Obligations.SubIntoVy : Prop :=
  ∀ x y : Reg, decode (packXYN 0x8#4 x y 0x5#4) = .ok (.sub x y) ∧
    ∀ s : State, ∃ t, exec (.sub x y) s = .next t ∧ t.pc = s.pc + 2#16 ∧
      (y ≠ regF ∨ s.params.flagOrder = .flagThenResult →
        (t.reg y).toNat = ((s.reg y).toNat + 256 - (s.reg x).toNat) % 256) ∧
      (y ≠ regF ∨ s.params.flagOrder = .resultThenFlag →
        (t.reg regF).toNat = if (s.reg x).toNat > (s.reg y).toNat then 0 else 1) ∧
      Unchanged { regs := fun q => q = y ∨ q = regF } s t

/-- SUBN Vx, Vy (R129): Vy - Vx modulo 256 into Vx, VF the NOT borrow. -/
def Obligations.SubnIntoVx : Prop :=
  ∀ x y : Reg, decode (packXYN 0x8#4 x y 0x7#4) = .ok (.subn x y) ∧
    ∀ s : State, ∃ t, exec (.subn x y) s = .next t ∧ t.pc = s.pc + 2#16 ∧
      (x ≠ regF ∨ s.params.flagOrder = .flagThenResult →
        (t.reg x).toNat = ((s.reg y).toNat + 256 - (s.reg x).toNat) % 256) ∧
      (x ≠ regF ∨ s.params.flagOrder = .resultThenFlag →
        (t.reg regF).toNat = if (s.reg x).toNat > (s.reg y).toNat then 0 else 1) ∧
      Unchanged { regs := fun q => q = x ∨ q = regF } s t

/-- SHR Vx (R130): halves Vx, VF the old bit 0, the Y field ignored. -/
def Obligations.ShiftRight : Prop :=
  ∀ x y : Reg, decode (packXYN 0x8#4 x y 0x6#4) = .ok (.shr x y) ∧
    ∀ s : State, ∃ t, exec (.shr x y) s = .next t ∧ t.pc = s.pc + 2#16 ∧
      (x ≠ regF ∨ s.params.flagOrder = .flagThenResult → (t.reg x).toNat = (s.reg x).toNat / 2) ∧
      (x ≠ regF ∨ s.params.flagOrder = .resultThenFlag → (t.reg regF).toNat = (s.reg x).toNat % 2) ∧
      Unchanged { regs := fun q => q = x ∨ q = regF } s t

/-- SHL Vx (R131): doubles Vx modulo 256, VF the old bit 7, the Y field ignored. -/
def Obligations.ShiftLeft : Prop :=
  ∀ x y : Reg, decode (packXYN 0x8#4 x y 0xE#4) = .ok (.shl x y) ∧
    ∀ s : State, ∃ t, exec (.shl x y) s = .next t ∧ t.pc = s.pc + 2#16 ∧
      (x ≠ regF ∨ s.params.flagOrder = .flagThenResult → (t.reg x).toNat = (s.reg x).toNat * 2 % 256) ∧
      (x ≠ regF ∨ s.params.flagOrder = .resultThenFlag → (t.reg regF).toNat = (s.reg x).toNat / 128) ∧
      Unchanged { regs := fun q => q = x ∨ q = regF } s t

/-- RND Vx, NN (R132): the drawn byte masked, whatever byte RAND draws. That the count of draws moves on by one, so that
the next draw is a fresh one, is the model's choice (log entry 4). -/
def Obligations.RandomMasked : Prop :=
  ∀ (x : Reg) (nn : Byte), decode (packXNN 0xC#4 x nn) = .ok (.rnd x nn) ∧
    ∀ s : State, ∃ t, exec (.rnd x nn) s = .next t ∧
      (∀ k, (t.reg x).getLsbD k = ((Config.rand s.draws).getLsbD k && nn.getLsbD k)) ∧
      t.draws = s.draws + 1 ∧ t.pc = s.pc + 2#16 ∧ Unchanged { regs := (· = x), draws := True } s t

/-! ## Memory and index -/

/-- LD I, NNN (R140). -/
def Obligations.LoadIndex : Prop :=
  ∀ nnn : Addr12, decode (packNNN 0xA#4 nnn) = .ok (.ldI nnn) ∧
    ∀ s : State, ∃ t, exec (.ldI nnn) s = .next t ∧ t.i.toNat = nnn.toNat ∧ t.pc = s.pc + 2#16 ∧
      Unchanged { index := True } s t

/-- ADD I, Vx (R141): I wraps at 16 bits, VF says whether the exact sum exceeds 0xFFF, X = 15 adds the old VF. -/
def Obligations.AddIndex : Prop :=
  ∀ x : Reg, decode (packXNN 0xF#4 x 0x1E#8) = .ok (.addI x) ∧
    ∀ s : State, ∃ t, exec (.addI x) s = .next t ∧
      t.i.toNat = (s.i.toNat + (s.reg x).toNat) % 65536 ∧
      (t.reg regF).toNat = (if s.i.toNat + (s.reg x).toNat > 0xFFF then 1 else 0) ∧ t.pc = s.pc + 2#16 ∧
      Unchanged { regs := (· = regF), index := True } s t

/-- LD F, Vx (R142): five times all of Vx. -/
def Obligations.FontAddress : Prop :=
  ∀ x : Reg, decode (packXNN 0xF#4 x 0x29#8) = .ok (.ldF x) ∧
    ∀ s : State, ∃ t, exec (.ldF x) s = .next t ∧ t.i.toNat = (s.reg x).toNat * 5 ∧ t.pc = s.pc + 2#16 ∧
      Unchanged { index := True } s t

/-- LD B, Vx (R143): the three decimal digits at I, I + 1 and I + 2, every other byte as before; MEM_WRITE_OOB names
the first address above 0xFFF and FONT_WRITE the first address, and then nothing is written. -/
def Obligations.StoreDecimal : Prop :=
  ∀ x : Reg, decode (packXNN 0xF#4 x 0x33#8) = .ok (.ldB x) ∧
    (∀ s : State, s.mem.wf = true → s.dataAddr 2 ≤ 0xFFF → (0x04F < s.dataAddr 0 ∨ s.params.fontWrite = .allow) →
      ∃ t, exec (.ldB x) s = .next t ∧
        (t.byteAt (s.dataAddr 0)).toNat = (s.reg x).toNat / 100 ∧
        (t.byteAt (s.dataAddr 1)).toNat = (s.reg x).toNat / 10 % 10 ∧
        (t.byteAt (s.dataAddr 2)).toNat = (s.reg x).toNat % 10 ∧ t.pc = s.pc + 2#16 ∧
        Unchanged { bytes := fun a => s.dataAddr 0 ≤ a ∧ a < s.dataAddr 3 } s t) ∧
    (∀ s : State, s.dataAddr 2 > 0xFFF →
      TakesFault (.ldB x) s
        ⟨.memWriteOob, s.pc, some (packXNN 0xF#4 x 0x33#8), some (max (s.dataAddr 0) 0x1000)⟩) ∧
    (∀ s : State, s.dataAddr 0 ≤ 0x04F → s.params.fontWrite = .fault →
      TakesFault (.ldB x) s ⟨.fontWrite, s.pc, some (packXNN 0xF#4 x 0x33#8), some (s.dataAddr 0)⟩)

/-- LD [I], Vx (R144): V0 to Vx at I to I + X, every other byte as before, I past the last byte; on a fault nothing is
written and I stays. -/
def Obligations.StoreRegisters : Prop :=
  ∀ x : Reg, decode (packXNN 0xF#4 x 0x55#8) = .ok (.ldMemVx x) ∧
    (∀ s : State, s.mem.wf = true → s.dataAddr x.toNat ≤ 0xFFF →
      (0x04F < s.dataAddr 0 ∨ s.params.fontWrite = .allow) →
      ∃ t, exec (.ldMemVx x) s = .next t ∧
        (∀ r : Reg, r.toNat ≤ x.toNat → t.byteAt (s.dataAddr r.toNat) = s.reg r) ∧
        t.i.toNat = (s.i.toNat + x.toNat + 1) % 65536 ∧ t.pc = s.pc + 2#16 ∧
        Unchanged { index := True, bytes := fun a => s.dataAddr 0 ≤ a ∧ a ≤ s.dataAddr x.toNat } s t) ∧
    (∀ s : State, s.dataAddr x.toNat > 0xFFF → (0x04F < s.dataAddr 0 ∨ s.params.fontWrite = .allow) →
      TakesFault (.ldMemVx x) s
        ⟨.memWriteOob, s.pc, some (packXNN 0xF#4 x 0x55#8), some (max (s.dataAddr 0) 0x1000)⟩) ∧
    (∀ s : State, s.dataAddr 0 ≤ 0x04F → s.params.fontWrite = .fault →
      TakesFault (.ldMemVx x) s ⟨.fontWrite, s.pc, some (packXNN 0xF#4 x 0x55#8), some (s.dataAddr 0)⟩)

/-- LD Vx, [I] (R145): V0 to Vx from I to I + X, the registers above X as before, I past the last byte; MEM_READ_OOB
names the first address above 0xFFF. -/
def Obligations.LoadRegisters : Prop :=
  ∀ x : Reg, decode (packXNN 0xF#4 x 0x65#8) = .ok (.ldVxMem x) ∧
    (∀ s : State, s.dataAddr x.toNat ≤ 0xFFF →
      ∃ t, exec (.ldVxMem x) s = .next t ∧
        (∀ r : Reg, r.toNat ≤ x.toNat → t.reg r = s.byteAt (s.dataAddr r.toNat)) ∧
        t.i.toNat = (s.i.toNat + x.toNat + 1) % 65536 ∧ t.pc = s.pc + 2#16 ∧
        Unchanged { regs := fun r => r.toNat ≤ x.toNat, index := True } s t) ∧
    (∀ s : State, s.dataAddr x.toNat > 0xFFF →
      TakesFault (.ldVxMem x) s
        ⟨.memReadOob, s.pc, some (packXNN 0xF#4 x 0x65#8), some (max (s.dataAddr 0) 0x1000)⟩)

/-! ## Display -/

/-- DRW Vx, Vy, N (R150, R151, R152). With every row readable and, where an off-display pixel faults, every set bit on
the display, it completes: exactly the hit cells are toggled, VF is the collision, I stays; under `wrap`, `clip` and
`fault`, for X or Y equal to 15 and for N = 0. Otherwise it faults: MEM_READ_OOB names the first row address above 0xFFF;
with every row readable, DISPLAY_OOB names the first set bit, row by row and left to right, off the display. -/
def Obligations.DrawSprite : Prop :=
  ∀ (x y : Reg) (n : Count), decode (packXYN 0xD#4 x y n) = .ok (.drw x y n) ∧
    (∀ s : State, s.SpriteReadable n → s.SpritePlaceable x y n →
      ∃ t, exec (.drw x y n) s = .next t ∧
        (∀ p, s.Hits x y n p →
          Display.cell t.display p = if Display.cell s.display p = 0x00#8 then 0x01#8 else 0x00#8) ∧
        (t.reg regF = 0x01#8 ∨ t.reg regF = 0x00#8) ∧
        (t.reg regF = 0x01#8 ↔ ∃ p, s.Hits x y n p ∧ Display.cell s.display p ≠ 0x00#8) ∧
        t.pc = s.pc + 2#16 ∧
        Unchanged { regs := (· = regF), cells := s.Hits x y n } s t) ∧
    (∀ s : State, ¬ s.SpriteReadable n → TakesFault (.drw x y n) s
      ⟨.memReadOob, s.pc, some (packXYN 0xD#4 x y n), some (max (s.dataAddr 0) 0x1000)⟩) ∧
    (∀ (s : State) (r c : Nat), s.SpriteReadable n → s.params.drawEdge = .fault →
      r < n.toNat → c < 8 → s.spriteSet r c → (s.spriteX x c > 63 ∨ s.spriteY y r > 31) →
      (∀ r' c', r' < n.toNat → c' < 8 → s.spriteSet r' c' → (r' < r ∨ r' = r ∧ c' < c) →
        s.spriteX x c' ≤ 63 ∧ s.spriteY y r' ≤ 31) →
      TakesFault (.drw x y n) s ⟨.displayOob, s.pc, some (packXYN 0xD#4 x y n),
        some (s.spriteY y r * 64 + s.spriteX x c)⟩)

/-- The collision laws of R153, which the spec marks as its own inference from R150 and R151. The second draw is the very
next instruction, with nothing between the two, at the same position, that is, with V[X] and V[Y] as before the first
(always so when neither is VF): (a) drawing twice restores every cell; (b) the second VF is 1 exactly when the first
draw turned a cell on, and, when the hit cells were off before, exactly when some set bit is placed; (c) a draw on a
clear display gives VF = 0; (d) VF is settled by the old values of the hit cells. -/
def Obligations.DrawTwiceRestores : Prop :=
  ∀ (x y : Reg) (n : Count) (s t : State),
    (∀ p, Display.cell s.display p = 0x00#8 ∨ Display.cell s.display p = 0x01#8) →
    s.SpriteReadable n → s.SpritePlaceable x y n → exec (.drw x y n) s = .next t →
    (t.reg x = s.reg x → t.reg y = s.reg y →
      ∃ u, exec (.drw x y n) t = .next u ∧
        (∀ p, Display.cell u.display p = Display.cell s.display p) ∧
        (u.reg regF = 0x01#8 ↔
          ∃ p, Display.cell s.display p = 0x00#8 ∧ Display.cell t.display p = 0x01#8) ∧
        ((∀ p, s.Hits x y n p → Display.cell s.display p = 0x00#8) →
          (u.reg regF = 0x01#8 ↔ ∃ p, s.Hits x y n p))) ∧
    ((∀ p, Display.cell s.display p = 0x00#8) → t.reg regF = 0x00#8) ∧
    (∀ s' t' : State, s'.SpriteReadable n → s'.SpritePlaceable x y n → exec (.drw x y n) s' = .next t' →
      (∀ p, s'.Hits x y n p ↔ s.Hits x y n p) →
      (∀ p, s.Hits x y n p → Display.cell s'.display p = Display.cell s.display p) → t'.reg regF = t.reg regF)

/-! ## Input -/

/-- SKP Vx and SKNP Vx (R160, R161): the key index is the value of Vx, and a value above 15 faults. -/
def Obligations.SkipOnKey : Prop :=
  ∀ x : Reg,
    decode (packXNN 0xE#4 x 0x9E#8) = .ok (.skp x) ∧ decode (packXNN 0xE#4 x 0xA1#8) = .ok (.sknp x) ∧
    (∀ s : State, (s.reg x).toNat ≤ 15 →
      (∃ t, exec (.skp x) s = .next t ∧
        t.pc = (if s.keyDown (s.reg x).toNat then s.pc + 4#16 else s.pc + 2#16) ∧ Unchanged {} s t) ∧
      (∃ t, exec (.sknp x) s = .next t ∧
        t.pc = (if s.keyDown (s.reg x).toNat then s.pc + 2#16 else s.pc + 4#16) ∧ Unchanged {} s t)) ∧
    (∀ s : State, (s.reg x).toNat > 15 →
      TakesFault (.skp x) s
        ⟨.keyIndexOob, s.pc, some (packXNN 0xE#4 x 0x9E#8), some (s.reg x).toNat⟩ ∧
      TakesFault (.sknp x) s
        ⟨.keyIndexOob, s.pc, some (packXNN 0xE#4 x 0xA1#8), some (s.reg x).toNat⟩)

/-- LD Vx, K (R162): with no key pressed the step completes, PC stays and nothing changes; else Vx is the highest
pressed key. -/
def Obligations.WaitForKey : Prop :=
  ∀ x : Reg, decode (packXNN 0xF#4 x 0x0A#8) = .ok (.ldVxK x) ∧
    (∀ s : State, (∀ k, k < 16 → s.keyDown k = false) → exec (.ldVxK x) s = .next s) ∧
    (∀ (s : State) (k : Nat), k < 16 → s.keyDown k = true → (∀ j, k < j → j < 16 → s.keyDown j = false) →
      ∃ t, exec (.ldVxK x) s = .next t ∧ (t.reg x).toNat = k ∧ t.pc = s.pc + 2#16 ∧
        Unchanged { regs := (· = x) } s t)

/-! ## Timers -/

/-- LD Vx, DT (R170): the value before the step's tick. -/
def Obligations.ReadDelay : Prop :=
  ∀ x : Reg, decode (packXNN 0xF#4 x 0x07#8) = .ok (.ldVxDt x) ∧
    ∀ s : State, ∃ t, exec (.ldVxDt x) s = .next t ∧ t.reg x = s.dt ∧ t.pc = s.pc + 2#16 ∧
      Unchanged { regs := (· = x) } s t

/-- LD DT, Vx (R171): the value written, and what the same step's tick leaves of it (which R171
marks as the spec's own inference from R215). -/
def Obligations.SetDelay : Prop :=
  ∀ x : Reg, decode (packXNN 0xF#4 x 0x15#8) = .ok (.ldDtVx x) ∧
    ∀ s : State, ∃ t, exec (.ldDtVx x) s = .next t ∧ t.dt = s.reg x ∧ t.pc = s.pc + 2#16 ∧
      Unchanged { dt := True } s t ∧
      (s.fault = none → ∃ u, s.runInstr (.ldDtVx x) = .next u ∧ u.dt.toNat = (s.reg x).toNat - 1)

/-- LD ST, Vx (R172): the value written, and what the same step's tick leaves of it (which R172 marks as
the spec's own inference from R215 and R216): the buzzer sounds exactly when the value is 1. -/
def Obligations.SetSound : Prop :=
  ∀ x : Reg, decode (packXNN 0xF#4 x 0x18#8) = .ok (.ldStVx x) ∧
    ∀ s : State, ∃ t, exec (.ldStVx x) s = .next t ∧ t.st = s.reg x ∧ t.pc = s.pc + 2#16 ∧
      Unchanged { st := True } s t ∧
      (s.fault = none → s.buzzer = false → ∃ u, s.runInstr (.ldStVx x) = .next u ∧
        u.st.toNat = (s.reg x).toNat - 1 ∧ (u.buzzer = true ↔ (s.reg x).toNat = 1))

/-! ## The step -/

/-- A step runs the decoded instruction (R70, R73, R200): where the word at PC decodes to `i`, the step is `exec i` with
the outputs 0 before it, and after it, unless a fault was raised, the tick (R215). -/
def Obligations.StepRunsDecoded : Prop :=
  ∀ (s : State) (i : Instr), s.fault = none → s.pc.toNat ≤ 0xFFE →
    (s.pc.toNat % 2 = 0 ∨ s.params.oddPc = .fetch) →
    decode (BitVec.ofNat 16 ((s.byteAt s.pc.toNat).toNat * 256 + (s.byteAt (s.pc.toNat + 1)).toNat)) = .ok i →
    step s =
      match exec i { s with buzzer := false, clearReq := false } with
      | .next t =>
        .next (if t.fault = none then
          { t with
            dt := if t.dt = 0x00#8 then 0x00#8 else t.dt - 0x01#8
            st := if t.st = 0x00#8 then 0x00#8 else t.st - 0x01#8
            buzzer := t.buzzer || t.st == 0x01#8 }
          else t)
      | .fault r => .fault r
      | .refused r => .refused r

/-- Fetch (R70): FETCH_OOB before MISALIGNED_FETCH, each with PC as its info and no word; otherwise the big-endian word
at PC. -/
def Obligations.FetchRule : Prop :=
  ∀ s : State, s.fault = none →
    (s.pc.toNat > 0xFFE → step s = .next { s with
      fault := some ⟨.fetchOob, s.pc, none, some s.pc.toNat⟩, buzzer := false, clearReq := false }) ∧
    (s.pc.toNat ≤ 0xFFE → s.pc.toNat % 2 = 1 → s.params.oddPc = .fault → step s = .next { s with
      fault := some ⟨.misalignedFetch, s.pc, none, some s.pc.toNat⟩, buzzer := false, clearReq := false }) ∧
    (s.pc.toNat ≤ 0xFFE → (s.pc.toNat % 2 = 0 ∨ s.params.oddPc = .fetch) →
      ∃ w, s.fetch = .ok w ∧ w.toNat = (s.byteAt s.pc.toNat).toNat * 256 + (s.byteAt (s.pc.toNat + 1)).toNat)

/-- Every step of a core that has not faulted answers a next state, whatever the word, the operands and the parameters.
That a step which raises a fault, and so stops the core (R206), also answers a next state, the one whose FAULT holds the
record, is the model's choice of form (log entry 1). -/
def Obligations.RunningStepAnswers : Prop :=
  ∀ s : State, s.fault = none → ∃ t, step s = .next t

/-- Faults are precise (R203): a step that raises a fault changes no state except FAULT, and its outputs are 0. -/
def Obligations.FaultsArePrecise : Prop :=
  ∀ (s t : State) (r : FaultRecord), s.fault = none → step s = .next t → t.fault = some r →
    t = { s with fault := some r, buzzer := false, clearReq := false }

/-- Fault entry (R208): the record holds the PC of the step, which stays, and the word it fetched, absent exactly for a
fetch fault, whatever the instruction; it is the step's result, and the core stops. That the next step of the stopped
core is the outcome `fault` is the model's choice of form (log entry 1). -/
def Obligations.FaultRecordNamesStep : Prop :=
  ∀ (s t : State) (r : FaultRecord), s.fault = none → step s = .next t → t.fault = some r →
    r.pc = s.pc ∧ t.pc = s.pc ∧ t.stepResult = .faulted r ∧ step t = .fault (.stopped r) ∧
    ((r.code = .fetchOob ∨ r.code = .misalignedFetch) → r.word = none) ∧
    (r.code ≠ .fetchOob → r.code ≠ .misalignedFetch → ∃ w, s.fetch = .ok w ∧ r.word = some w)

/-- A fault stops the core for good (R206): every later step reports the same record and changes nothing, no key write
clears FAULT, and reset does. That such a step is the outcome `fault` is the model's choice of form (log entry 1). -/
def Obligations.StoppedCoreStays : Prop :=
  (∀ (s : State) (r : FaultRecord), s.fault = some r → step s = .fault (.stopped r)) ∧
  (∀ (h : Session) (r : FaultRecord), h.core.fault = some r → h.phase ≠ .ended →
    ∃ h', h.step = .ok (h', .faulted r) ∧ h'.core = h.core) ∧
  (∀ (s : State) (ks : Vector Bool 16), (s.writeKeys ks).fault = s.fault) ∧
  (∀ s : State, s.hostReset.fault = none)

/-- Which fault comes from where and what its info is (R205, columns "raised by", "cause" and "info"), over a whole
step: an address fault names the first address, in the order of access, that fails (R207), and a display fault a set
sprite bit, of a sprite whose rows are readable, that lies off the display. -/
def Obligations.FaultCauses : Prop :=
  ∀ (s t : State) (r : FaultRecord), s.fault = none → step s = .next t → t.fault = some r →
    match r.code with
    | .unknownInstruction => r.info = none ∧ ∃ w, s.fetch = .ok w ∧ ∀ i, decode w ≠ .ok i
    | .unsupportedSys => r.info = none ∧ ∃ w nnn, s.Executes w (.sys nnn)
    | .stackOverflow => r.info = none ∧ s.sp.val = 16 ∧ ∃ w nnn, s.Executes w (.call nnn)
    | .stackUnderflow => r.info = none ∧ s.sp.val = 0 ∧ ∃ w, s.Executes w .ret
    | .memReadOob => ∃ k, r.info = some (s.dataAddr k) ∧ s.dataAddr k > 0xFFF ∧ (∀ j, j < k → s.dataAddr j ≤ 0xFFF) ∧
        ∃ w, (∃ x y n, s.Executes w (.drw x y n) ∧ k < n.toNat) ∨ ∃ x, s.Executes w (.ldVxMem x) ∧ k ≤ x.toNat
    | .memWriteOob => ∃ k, r.info = some (s.dataAddr k) ∧ s.dataAddr k > 0xFFF ∧ (∀ j, j < k → s.dataAddr j ≤ 0xFFF) ∧
        ∃ w x, s.Executes w (.ldB x) ∧ k < 3 ∨ s.Executes w (.ldMemVx x) ∧ k ≤ x.toNat
    | .fontWrite => s.params.fontWrite = .fault ∧ r.info = some (s.dataAddr 0) ∧ s.dataAddr 0 ≤ 0x04F ∧
        ∃ w x, s.Executes w (.ldB x) ∨ s.Executes w (.ldMemVx x)
    | .fetchOob => s.pc.toNat > 0xFFE ∧ r.info = some s.pc.toNat
    | .misalignedFetch => s.pc.toNat ≤ 0xFFE ∧ s.pc.toNat % 2 = 1 ∧ s.params.oddPc = .fault ∧ r.info = some s.pc.toNat
    | .keyIndexOob => ∃ w x, (s.Executes w (.skp x) ∨ s.Executes w (.sknp x)) ∧ (s.reg x).toNat > 15 ∧
        r.info = some (s.reg x).toNat
    | .displayOob => s.params.drawEdge = .fault ∧ ∃ w x y n row col, s.Executes w (.drw x y n) ∧ s.SpriteReadable n ∧
        row < n.toNat ∧ col < 8 ∧ s.spriteSet row col ∧ (s.spriteX x col > 63 ∨ s.spriteY y row > 31) ∧
        r.info = some (s.spriteY y row * 64 + s.spriteX x col)
    | .loadError => False

/-- The tick and the buzzer (R215, R216): after the instruction of a step that does not fault, each timer is one less
and stops at 0, a timer value the instruction wrote is the value the tick sees, nothing else changes, and BUZZER is 1
exactly when ST goes from 1 to 0. -/
def Obligations.TickAfterInstruction : Prop :=
  (∀ (s t : State) (w : Word) (i : Instr), s.Executes w i → exec i s.clearOutputs = .next t → t.fault = none →
    ∃ u, step s = .next u ∧ u.dt.toNat = t.dt.toNat - 1 ∧ u.st.toNat = t.st.toNat - 1 ∧
      (u.buzzer = true ↔ t.st.toNat = 1) ∧
      u = { t with dt := u.dt, st := u.st, buzzer := u.buzzer }) ∧
  (∀ (s t : State) (r : FaultRecord), s.fault = none → step s = .next t → t.fault = some r →
    t.dt = s.dt ∧ t.st = s.st ∧ t.buzzer = false)

/-- The timer laws (R217, which the spec derives from R200 and R215): k consecutive non-faulting steps with no timer-writing instruction leave max(0, DT - k) and
max(0, ST - k); a faulted core has no next state, so its timers stop, which is the model's choice of form (log entry
1). -/
def Obligations.TimersCountDown : Prop :=
  (∀ (k : Nat) (s u : State), QuietRun k s u → u.dt.toNat = s.dt.toNat - k ∧ u.st.toNat = s.st.toNat - k) ∧
  (∀ (s t : State) (r : FaultRecord), s.fault = some r → step s ≠ .next t)

/-- CLEAR_REQ is 1 after exactly the steps that execute CLS (R32, R226). The outputs the state shows do not influence the
next step: that State holds them is the model's choice (log entry 2), and so is that the two steps compared draw the
same byte for RND, which the hardware does not promise (log entry 4). -/
def Obligations.OutputsBelongToStep : Prop :=
  (∀ s t : State, s.fault = none → step s = .next t → (t.clearReq = true ↔ ∃ w, s.Executes w .cls)) ∧
  (∀ (s : State) (b c : Bool), s.fault = none → step { s with buzzer := b, clearReq := c } = step s)

/-- The register table (R22): an instruction changes no register outside its "writes" column, and a register outside
its "reads" column influences nothing but itself: with another value there, the instruction answers the same state, up
to that register when it is not written. The two executions compared draw the same byte for RND: the model's choice,
which the hardware does not promise (log entry 4). -/
def Obligations.RegistersReadAndWritten : Prop :=
  (∀ (i : Instr) (s t : State) (r : Reg), exec i s = .next t → ¬ writesReg r i → t.reg r = s.reg r) ∧
  (∀ (i : Instr) (s t : State) (r : Reg) (b : Byte), ¬ readsReg r i → exec i s = .next t →
    ∃ t', exec i (s.setReg r b) = .next t' ∧ (t' = t ∨ t' = t.setReg r b))

/-- Who changes what (R23, R25, R26, R27, R28, R29, R34, R58): I, SP, the stack entries, the timers, the display and
memory are changed by their own instructions only, and no instruction changes a key flag. That the parameters are fields
of State which no instruction changes is the model's choice (log entry 3). -/
def Obligations.SpecialStateWriters : Prop :=
  ∀ (i : Instr) (s t : State), exec i s = .next t →
    (t.i ≠ s.i → (∃ nnn, i = .ldI nnn) ∨ ∃ x, i = .addI x ∨ i = .ldF x ∨ i = .ldMemVx x ∨ i = .ldVxMem x) ∧
    (t.sp ≠ s.sp → i = .ret ∨ ∃ nnn, i = .call nnn) ∧
    (∀ k, t.stackAt k ≠ s.stackAt k → ∃ nnn, i = .call nnn) ∧
    (t.dt ≠ s.dt → ∃ x, i = .ldDtVx x) ∧
    (t.st ≠ s.st → ∃ x, i = .ldStVx x) ∧
    (∀ p, Display.cell t.display p ≠ Display.cell s.display p → i = .cls ∨ ∃ x y n, i = .drw x y n) ∧
    (∀ a, t.byteAt a ≠ s.byteAt a → ∃ x, i = .ldB x ∨ i = .ldMemVx x) ∧
    t.keys = s.keys ∧ t.params = s.params

/-- Under FONT_WRITE_POLICY = `fault` no step changes a byte of the font table (R51, R55, R61). -/
def Obligations.FontStaysReadOnly : Prop :=
  ∀ s t : State, s.mem.wf = true → s.params.fontWrite = .fault → step s = .next t →
    ∀ a, a ≤ 0x04F → t.byteAt a = s.byteAt a

/-- A word stored by LD [I], Vx is what a fetch at its address reads next, the following instruction's word included
(R64, R257). -/
def Obligations.StoresAreFetched : Prop :=
  ∀ (x r : Reg) (s t : State), s.mem.wf = true → exec (.ldMemVx x) s = .next t → t.fault = none →
    r.toNat < x.toNat → t.pc.toNat = s.dataAddr r.toNat →
    (t.pc.toNat % 2 = 0 ∨ t.params.oddPc = .fetch) →
    ∃ w, t.fetch = .ok w ∧ w.toNat = (s.reg r).toNat * 256 + (s.reg (r + 1)).toNat

/-- CALL and then RET at its target (R101, R103, W4) lands after the CALL with SP as before. -/
def Obligations.CallThenReturn : Prop :=
  ∀ (nnn : Addr12) (s : State), s.sp.val ≠ 16 →
    ∃ t u, exec (.call nnn) s = .next t ∧ exec .ret t = .next u ∧ u.pc = s.pc + 2#16 ∧ u.sp = s.sp

/-- The key wait has no time-out (R258): with no key pressed, any number of steps stays at LD Vx, K, only the timers
running down and BUZZER sounding in the step that takes ST to 0. That State shows the outputs of the last step is the
model's choice (log entry 2). -/
def Obligations.KeyWaitHangs : Prop :=
  ∀ s : State, s.WaitingEnd → ∀ k : Nat, ∃ t, Host.Core.run Sys2Proof.core k s = .next t ∧ t.WaitingEnd ∧
    t.pc = s.pc ∧ t.dt.toNat = s.dt.toNat - k ∧ t.st.toNat = s.st.toNat - k ∧
    t.v = s.v ∧ t.i = s.i ∧ t.sp = s.sp ∧ t.stack = s.stack ∧ t.display = s.display ∧ t.mem = s.mem ∧
    t.keys = s.keys ∧ t.params = s.params ∧ t.draws = s.draws ∧
    (0 < k → t.clearReq = false ∧ (t.buzzer = true ↔ s.st.toNat = k))

/-- The idle end (R263 (b)): after a self-jump every later step only executes the jump again and ticks the timers, BUZZER
sounding in the step that takes ST to 0; the core does not stop. That State shows the outputs of the last step is the
model's choice (log entry 2). -/
def Obligations.SelfJumpIdles : Prop :=
  ∀ s : State, s.IdleEnd → ∀ k : Nat, ∃ t, Host.Core.run Sys2Proof.core k s = .next t ∧ t.IdleEnd ∧
    t.pc = s.pc ∧ t.dt.toNat = s.dt.toNat - k ∧ t.st.toNat = s.st.toNat - k ∧
    t.v = s.v ∧ t.i = s.i ∧ t.sp = s.sp ∧ t.stack = s.stack ∧ t.display = s.display ∧ t.mem = s.mem ∧
    t.keys = s.keys ∧ t.params = s.params ∧ t.draws = s.draws ∧
    (0 < k → t.clearReq = false ∧ (t.buzzer = true ↔ s.st.toNat = k))

/-! ## The invariant -/

/-- Every step keeps the invariant (`State.Inv`): canonical memory (log entry 5), cells 0 or 1 (R29), PC at most 0x10FE
(R24), live stack entries that are addresses of fetched CALLs (R101), no output of a faulted core (log entry 2). -/
def Obligations.StepKeepsInv : Prop :=
  ∀ s t : State, s.Inv → step s = .next t → t.Inv

/-- The invariant holds at reset, and after a reset with any parameters. -/
def Obligations.ResetMeetsInv : Prop :=
  State.reset.Inv ∧ ∀ p : Params, (State.resetWith p).Inv

/-- The host's other operations keep the invariant: reset, load and key writes (R225, R250, R252); and a key write makes
the sixteen flags those written and changes nothing else (R225). -/
def Obligations.HostKeepsInv : Prop :=
  (∀ (s t : State) (src : ProgramSource), s.Inv → s.load src = .ok t → t.Inv) ∧
  (∀ s : State, s.hostReset.Inv) ∧
  (∀ (s : State) (ks : Vector Bool 16), (s.Inv → (s.writeKeys ks).Inv) ∧
    (∀ k (h : k < 16), (s.writeKeys ks).keyDown k = ks[k]) ∧
    s.writeKeys ks = { s with keys := (s.writeKeys ks).keys })

/-! ## The host: reset, load, display -/

/-- The display the host reads (R225, R29): 2048 cells, cell (x, y) at index `y * 64 + x`. -/
def Obligations.DisplayReadOut : Prop :=
  ∀ s : State, s.readDisplay.length = 2048 ∧
    ∀ p : Pixel, s.readDisplay[p.y.val * 64 + p.x.val]? = some (Display.cell s.display p)

/-- Reset (R250, R251): every piece of state at its reset value, for every value of FONT and of the other parameters,
from every state, a faulted one included. That State shows the step's outputs, which are 0 after reset, is the model's
choice (log entry 2), and so is that the parameters are fields of State which reset keeps (log entry 3). -/
def Obligations.ResetState : Prop :=
  (∀ s : State,
    (∀ r, s.hostReset.reg r = 0x00#8) ∧ s.hostReset.i = 0x0000#16 ∧ s.hostReset.pc = 0x0200#16 ∧
    (∀ k, s.hostReset.stackAt k = 0x0000#16) ∧ s.hostReset.sp.val = 0 ∧
    s.hostReset.dt = 0x00#8 ∧ s.hostReset.st = 0x00#8 ∧ (∀ k, s.hostReset.keyDown k = false) ∧
    (∀ p, Display.cell s.hostReset.display p = 0x00#8) ∧
    (∀ a (h : a < 80), s.hostReset.byteAt a = s.params.font[a]) ∧
    (∀ a, 80 ≤ a → s.hostReset.byteAt a = 0x00#8) ∧
    s.hostReset.fault = none ∧ s.hostReset.buzzer = false ∧ s.hostReset.clearReq = false ∧
    s.hostReset.params = s.params) ∧
  State.resetWith hardwareParams = State.reset

/-- Load (R252): an image of up to 3232 bytes stands at 0x200, every other byte and everything else as before; a longer
image or an unreadable source is LOAD_ERROR. That a second load, or a load after a step, is refused by a session that
keeps the order is the model's choice (log entry 7). -/
def Obligations.LoadPlacesImage : Prop :=
  (∀ (h : Session) (bytes : List Byte), h.phase = .fresh → h.core.mem.wf = true → bytes.length ≤ 3232 →
    ∃ h', h.load (.image bytes) = .ok (h', true) ∧ h'.phase = .loaded ∧
      (∀ k, k < bytes.length → h'.core.byteAt (0x200 + k) = bytes.getD k 0) ∧
      (∀ a, (a < 0x200 ∨ 0x200 + bytes.length ≤ a) → h'.core.byteAt a = h.core.byteAt a) ∧
      h'.core = { h.core with mem := h'.core.mem }) ∧
  (∀ h : Session, h.phase = .fresh → (∃ h', h.load .unreadable = .ok (h', false)) ∧
    ∀ bytes : List Byte, bytes.length > 3232 → ∃ h', h.load (.image bytes) = .ok (h', false)) ∧
  (∀ (h : Session) (src : ProgramSource), (h.phase = .loaded ∨ h.phase = .running) →
    h.load src = .error .loadNotAllowed) ∧
  (∀ (h h' : Session) (r : StepResult), h.step = .ok (h', r) → h'.phase = .running)

/-- LOAD_ERROR (R253): an unreadable source, an image above 3232 bytes or a stream that fails mid-read ends the session.
That an ended session refuses steps, loads, key writes and both reads by name, and answers reset alone, is the model's
choice (log entry 7). -/
def Obligations.LoadErrorEndsSession : Prop :=
  (∀ (h : Session) (src : ProgramSource), h.phase = .fresh →
    (src = .unreadable ∨ (∃ bytes, src = .failedMidRead bytes) ∨ ∃ bytes, src = .image bytes ∧ bytes.length > 3232) →
    h.core.load src = .error .loadError ∧ ∃ h', h.load src = .ok (h', false) ∧ h'.phase = .ended) ∧
  (∀ h : Session, h.phase = .ended →
    h.step = .error .sessionEnded ∧ (∀ src, h.load src = .error .sessionEnded) ∧
    (∀ ks, h.writeKeys ks = .error .sessionEnded) ∧ h.readDisplay = .error .sessionEnded ∧
    h.readState = .error .sessionEnded ∧ h.reset.phase = .fresh)

/-- An empty image loads, and its first step fetches 0x0000 at 0x200, SYS, and faults with UNSUPPORTED_SYS (R255). -/
def Obligations.EmptyImageFaults : Prop :=
  ∀ p : Params, ∃ s, (State.resetWith p).load (.image []) = .ok s ∧
    step s = .next { s with
      fault := some ⟨.unsupportedSys, 0x0200#16, some 0x0000#16, none⟩, buzzer := false, clearReq := false }
end

