-- ==== Sys2Proof/Laws/Encoding.lean ====
section
/-! SUPPORT. The fields of a packed word, and packing a word's own fields: what the decoder and the encoder need. -/

namespace Sys2Proof

theorem packNNN_bit (op : BitVec 4) (nnn : Addr12) (k : Nat) :
    (packNNN op nnn).getLsbD k = if k < 12 then nnn.getLsbD k else op.getLsbD (k - 12) :=
  BitVec.getLsbD_append (x := op) (y := nnn) (i := k)

theorem packXNN_bit (op : BitVec 4) (x : Reg) (nn : Byte) (k : Nat) :
    (packXNN op x nn).getLsbD k =
      if k < 8 then nn.getLsbD k else if k < 12 then x.getLsbD (k - 8) else op.getLsbD (k - 12) := by
  refine (BitVec.getLsbD_append (x := op) (y := x ++ nn) (i := k)).trans ?_
  rw [BitVec.getLsbD_append]
  repeat' split
  all_goals first | rfl | omega

theorem packXYN_bit (op : BitVec 4) (x y : Reg) (n : BitVec 4) (k : Nat) :
    (packXYN op x y n).getLsbD k =
      if k < 4 then n.getLsbD k else if k < 8 then y.getLsbD (k - 4)
      else if k < 12 then x.getLsbD (k - 8) else op.getLsbD (k - 12) := by
  refine (BitVec.getLsbD_append (x := op) (y := x ++ (y ++ n)) (i := k)).trans ?_
  rw [BitVec.getLsbD_append, BitVec.getLsbD_append]
  repeat' split
  all_goals first | rfl | omega

/-! ## The fields of a packed word -/

@[simp] theorem fieldOp_packNNN (op : BitVec 4) (nnn : Addr12) : fieldOp (packNNN op nnn) = op := by
  apply BitVec.eq_of_getLsbD_eq; intro k hk; simp [fieldOp, packNNN_bit, hk]

@[simp] theorem fieldNNN_packNNN (op : BitVec 4) (nnn : Addr12) : fieldNNN (packNNN op nnn) = nnn := by
  apply BitVec.eq_of_getLsbD_eq; intro k hk; simp [fieldNNN, packNNN_bit, hk]

@[simp] theorem fieldOp_packXNN (op : BitVec 4) (x : Reg) (nn : Byte) : fieldOp (packXNN op x nn) = op := by
  apply BitVec.eq_of_getLsbD_eq; intro k hk; simp [fieldOp, packXNN_bit, hk]; omega

@[simp] theorem fieldX_packXNN (op : BitVec 4) (x : Reg) (nn : Byte) : fieldX (packXNN op x nn) = x := by
  apply BitVec.eq_of_getLsbD_eq; intro k hk; simp [fieldX, packXNN_bit, hk]; omega

@[simp] theorem fieldNN_packXNN (op : BitVec 4) (x : Reg) (nn : Byte) : fieldNN (packXNN op x nn) = nn := by
  apply BitVec.eq_of_getLsbD_eq; intro k hk; simp [fieldNN, packXNN_bit, hk]

@[simp] theorem fieldOp_packXYN (op : BitVec 4) (x y : Reg) (n : BitVec 4) : fieldOp (packXYN op x y n) = op := by
  apply BitVec.eq_of_getLsbD_eq; intro k hk
  simp [fieldOp, packXYN_bit, hk, show ¬ 12 + k < 4 by omega, show ¬ 12 + k < 8 by omega]

@[simp] theorem fieldX_packXYN (op : BitVec 4) (x y : Reg) (n : BitVec 4) : fieldX (packXYN op x y n) = x := by
  apply BitVec.eq_of_getLsbD_eq; intro k hk
  simp [fieldX, packXYN_bit, hk, show ¬ 8 + k < 4 by omega, show 8 + k < 12 by omega]

@[simp] theorem fieldY_packXYN (op : BitVec 4) (x y : Reg) (n : BitVec 4) : fieldY (packXYN op x y n) = y := by
  apply BitVec.eq_of_getLsbD_eq; intro k hk
  simp [fieldY, packXYN_bit, hk, show 4 + k < 8 by omega]

@[simp] theorem fieldN_packXYN (op : BitVec 4) (x y : Reg) (n : BitVec 4) : fieldN (packXYN op x y n) = n := by
  apply BitVec.eq_of_getLsbD_eq; intro k hk; simp [fieldN, packXYN_bit, hk]

/-! ## A word is its own fields, packed -/

theorem packNNN_fields (w : Word) : packNNN (fieldOp w) (fieldNNN w) = w := by
  apply BitVec.eq_of_getLsbD_eq; intro k hk; rw [packNNN_bit]; simp [fieldOp, fieldNNN]; grind

theorem packXNN_fields (w : Word) : packXNN (fieldOp w) (fieldX w) (fieldNN w) = w := by
  apply BitVec.eq_of_getLsbD_eq; intro k hk; rw [packXNN_bit]; simp [fieldOp, fieldNN, fieldX]; grind

theorem packXYN_fields (w : Word) : packXYN (fieldOp w) (fieldX w) (fieldY w) (fieldN w) = w := by
  apply BitVec.eq_of_getLsbD_eq; intro k hk; rw [packXYN_bit]; simp [fieldOp, fieldN, fieldX, fieldY]; grind

/-! ## Bytes of a word -/

theorem wordOfBytes_bit (hi lo : Byte) (k : Nat) :
    (wordOfBytes hi lo).getLsbD k = if k < 8 then lo.getLsbD k else hi.getLsbD (k - 8) :=
  BitVec.getLsbD_append (x := hi) (y := lo) (i := k)

@[simp] theorem highByte_wordOfBytes (hi lo : Byte) : highByte (wordOfBytes hi lo) = hi := by
  apply BitVec.eq_of_getLsbD_eq; intro k hk
  simp [highByte, wordOfBytes_bit, hk]

@[simp] theorem lowByte_wordOfBytes (hi lo : Byte) : lowByte (wordOfBytes hi lo) = lo := by
  apply BitVec.eq_of_getLsbD_eq; intro k hk
  simp [lowByte, wordOfBytes_bit, hk]

@[simp] theorem wordOfBytes_bytes (w : Word) : wordOfBytes (highByte w) (lowByte w) = w := by
  apply BitVec.eq_of_getLsbD_eq; intro k hk
  rw [wordOfBytes_bit]; simp [highByte, lowByte]; grind

/-- The word of two bytes is the big-endian number (20_memory.md rule R56). -/
theorem wordOfBytes_toNat (hi lo : Byte) : (wordOfBytes hi lo).toNat = hi.toNat * 256 + lo.toNat := by
  refine (BitVec.toNat_append (x := hi) (y := lo)).trans ?_
  rw [← Nat.shiftLeft_add_eq_or_of_lt lo.isLt, Nat.shiftLeft_eq]

end Sys2Proof
end

