-- ==== Sys2Proof/Laws/Memory.lean ====
section
/-! SUPPORT. The laws of memory: a read after a write, and every write keeps the canonical form. -/

namespace Sys2Proof.Machine

theorem Memory.read_keepCell (a : Nat) (b : Byte) (rest : Memory) (x : Nat)
    (h : x = a → Memory.read rest a = background a) :
    Memory.read (Memory.keepCell a b rest) x = if x = a then b else Memory.read rest x := by
  unfold Memory.keepCell
  by_cases hx : x = a
  · subst hx
    by_cases hb : b = background x <;> simp [hb, Memory.read, h rfl]
  · by_cases hb : b = background a
    · simp [hb, hx]
    · simp [hb, hx, Memory.read, Ne.symm hx]

/-- Below its first address a canonical memory lists nothing. -/
theorem Memory.read_below : ∀ (m : Memory) (lo a : Nat), Memory.wfFrom lo m → a < lo →
    Memory.read m a = background a
  | [], _, _, _, _ => rfl
  | c :: rest, lo, a, h, ha => by
    simp [Memory.wfFrom] at h
    have hne : c.1 ≠ a := by omega
    simp [Memory.read, hne, Memory.read_below rest (c.1 + 1) a h.2 (by omega)]

/-- A read after a write. -/
theorem Memory.read_write : ∀ (m : Memory) (lo a : Nat) (b : Byte) (x : Nat), Memory.wfFrom lo m →
    Memory.read (Memory.write m a b) x = if x = a then b else Memory.read m x
  | [], _, a, b, x, _ => by
    exact Memory.read_keepCell a b [] x fun _ => rfl
  | c :: rest, lo, a, b, x, h => by
    simp [Memory.wfFrom] at h
    obtain ⟨⟨⟨h1, h2⟩, h3⟩, h4⟩ := h
    unfold Memory.write
    split
    · rename_i hlt
      apply Memory.read_keepCell
      intro _
      have hne : c.1 ≠ a := by omega
      simp [Memory.read, hne, Memory.read_below rest (c.1 + 1) a h4 (by omega)]
    · split
      · rename_i heq
        rw [Memory.read_keepCell]
        · by_cases hx : x = a
          · simp [hx]
          · simp [hx, Memory.read, show c.1 ≠ x by omega]
        · intro _
          exact Memory.read_below rest (c.1 + 1) a h4 (by omega)
      · rename_i hlt hne
        simp only [Memory.read, Memory.read_write rest (c.1 + 1) a b x h4]
        by_cases hx : c.1 = x
        · simp [hx, show x ≠ a by omega]
        · simp [hx]

theorem Memory.wfFrom_keepCell (lo a : Nat) (b : Byte) (rest : Memory) (ha : lo ≤ a) (hm : a < memSize)
    (h : Memory.wfFrom (a + 1) rest) (h0 : Memory.wfFrom lo rest) : Memory.wfFrom lo (Memory.keepCell a b rest) := by
  unfold Memory.keepCell
  split
  · exact h0
  · rename_i hb
    simp [Memory.wfFrom, ha, hm, h, hb]

theorem Memory.wfFrom_mono : ∀ (m : Memory) (lo lo' : Nat), lo' ≤ lo → Memory.wfFrom lo m → Memory.wfFrom lo' m
  | [], _, _, _, _ => rfl
  | c :: rest, lo, lo', hl, h => by
    simp [Memory.wfFrom] at h ⊢
    exact ⟨⟨⟨by omega, h.1.1.2⟩, h.1.2⟩, h.2⟩

theorem Memory.wfFrom_write : ∀ (m : Memory) (lo a : Nat) (b : Byte), lo ≤ a → a < memSize →
    Memory.wfFrom lo m → Memory.wfFrom lo (Memory.write m a b)
  | [], lo, a, b, hl, ha, _ => Memory.wfFrom_keepCell lo a b [] hl ha rfl rfl
  | c :: rest, lo, a, b, hl, ha, h => by
    have h' := h
    simp [Memory.wfFrom] at h
    obtain ⟨⟨⟨h1, h2⟩, h3⟩, h4⟩ := h
    unfold Memory.write
    split
    · apply Memory.wfFrom_keepCell lo a b _ hl ha _ h'
      simp [Memory.wfFrom, h2, h3, h4]; omega
    · split
      · rename_i heq
        subst heq
        exact Memory.wfFrom_keepCell lo _ b rest hl ha h4 (Memory.wfFrom_mono rest _ lo (by omega) h4)
      · simp [Memory.wfFrom, h1, h2, h3]
        exact Memory.wfFrom_write rest (c.1 + 1) a b (by omega) ha h4

/-- A write inside memory keeps the canonical form. -/
theorem Memory.wf_write (m : Memory) (a : Nat) (b : Byte) (ha : a < memSize) (h : Memory.wf m) :
    Memory.wf (Memory.write m a b) :=
  Memory.wfFrom_write m 0 a b (Nat.zero_le a) ha h

/-- Writes at consecutive addresses inside memory keep the canonical form. -/
theorem Memory.wf_writeBytes : ∀ (bs : List Byte) (m : Memory) (a : Nat), a + bs.length ≤ memSize → Memory.wf m →
    Memory.wf (Memory.writeBytes m a bs)
  | [], _, _, _, h => h
  | b :: bs, m, a, ha, h => by
    simp only [List.length_cons] at ha
    exact Memory.wf_writeBytes bs _ (a + 1) (by omega) (Memory.wf_write m a b (by omega) h)

/-- A read after writes at consecutive addresses. -/
theorem Memory.read_writeBytes : ∀ (bs : List Byte) (m : Memory) (a x : Nat), a + bs.length ≤ memSize → Memory.wf m →
    Memory.read (Memory.writeBytes m a bs) x =
      if a ≤ x ∧ x < a + bs.length then bs.getD (x - a) 0 else Memory.read m x
  | [], m, a, x, _, _ => by
    simp [Memory.writeBytes]
  | b :: bs, m, a, x, ha, h => by
    simp only [List.length_cons] at ha ⊢
    have hw := Memory.wf_write m a b (by omega) h
    rw [Memory.writeBytes, Memory.read_writeBytes bs _ (a + 1) x (by omega) hw, Memory.read_write m 0 a b x h]
    by_cases h1 : x = a
    · subst h1
      simp
    · by_cases h2 : a + 1 ≤ x ∧ x < a + 1 + bs.length
      · have hs : x - a = x - (a + 1) + 1 := by omega
        rw [if_pos h2, if_pos (by omega), hs, List.getD_cons_succ]
      · rw [if_neg h2, if_neg h1, if_neg (by omega)]

/-- The reset memory is canonical. -/
theorem Memory.wf_nil : Memory.wf [] := rfl

theorem Memory.wfFrom_ext : ∀ (m n : Memory) (lo : Nat), Memory.wfFrom lo m → Memory.wfFrom lo n →
    (∀ a, Memory.read m a = Memory.read n a) → m = n
  | [], [], _, _, _, _ => rfl
  | [], d :: n, lo, _, hn, h => by
    have hd := h d.1
    simp [Memory.wfFrom] at hn
    simp [Memory.read] at hd
    exact absurd hd.symm hn.1.2
  | c :: m, [], lo, hm, _, h => by
    have hc := h c.1
    simp [Memory.wfFrom] at hm
    simp [Memory.read] at hc
    exact absurd hc hm.1.2
  | (a, b) :: m, (a', b') :: n, lo, hm, hn, h => by
    simp [Memory.wfFrom] at hm hn
    obtain ⟨⟨⟨_, _⟩, hb⟩, hm'⟩ := hm
    obtain ⟨⟨⟨_, _⟩, hb'⟩, hn'⟩ := hn
    have ha := h a
    have ha' := h a'
    rcases Nat.lt_trichotomy a a' with hlt | heq | hgt
    · have hbelow := Memory.read_below n (a' + 1) a hn' (by omega)
      simp only [Memory.read, if_true, if_neg (show ¬ a' = a by omega), hbelow] at ha
      exact absurd ha hb
    · subst heq
      simp only [Memory.read, if_true] at ha
      subst ha
      have htail : m = n := by
        refine Memory.wfFrom_ext m n (a + 1) hm' hn' fun x => ?_
        by_cases hx : a = x
        · subst hx
          rw [Memory.read_below m (a + 1) a hm' (by omega), Memory.read_below n (a + 1) a hn' (by omega)]
        · have := h x
          simpa [Memory.read, hx] using this
      rw [htail]
    · have hbelow := Memory.read_below m (a + 1) a' hm' (by omega)
      simp only [Memory.read, if_true, if_neg (show ¬ a = a' by omega), hbelow] at ha'
      exact absurd ha'.symm hb'

/-- Canonical memories that read alike are equal lists. -/
theorem Memory.wf_ext (m n : Memory) (hm : Memory.wf m) (hn : Memory.wf n)
    (h : ∀ a, Memory.read m a = Memory.read n a) : m = n :=
  Memory.wfFrom_ext m n 0 hm hn h

end Sys2Proof.Machine
end

