-- ==== Sys2Proof/Laws/State.lean ====
section
/-! SUPPORT. Every field, and every read of a register, a stack entry, a key or a byte, after every update of State:
true by rfl, so that no proof unfolds an update. -/

namespace Sys2Proof.Machine

variable (s : State)

/-! ### setReg -/

@[simp] theorem State.setReg_params (x : Reg) (b : Byte) : (s.setReg x b).params = s.params := rfl
@[simp] theorem State.setReg_v (x : Reg) (b : Byte) : (s.setReg x b).v = s.v.set x.toNat b x.isLt := rfl
@[simp] theorem State.setReg_i (x : Reg) (b : Byte) : (s.setReg x b).i = s.i := rfl
@[simp] theorem State.setReg_pc (x : Reg) (b : Byte) : (s.setReg x b).pc = s.pc := rfl
@[simp] theorem State.setReg_stack (x : Reg) (b : Byte) : (s.setReg x b).stack = s.stack := rfl
@[simp] theorem State.setReg_sp (x : Reg) (b : Byte) : (s.setReg x b).sp = s.sp := rfl
@[simp] theorem State.setReg_dt (x : Reg) (b : Byte) : (s.setReg x b).dt = s.dt := rfl
@[simp] theorem State.setReg_st (x : Reg) (b : Byte) : (s.setReg x b).st = s.st := rfl
@[simp] theorem State.setReg_keys (x : Reg) (b : Byte) : (s.setReg x b).keys = s.keys := rfl
@[simp] theorem State.setReg_display (x : Reg) (b : Byte) : (s.setReg x b).display = s.display := rfl
@[simp] theorem State.setReg_mem (x : Reg) (b : Byte) : (s.setReg x b).mem = s.mem := rfl
@[simp] theorem State.setReg_fault (x : Reg) (b : Byte) : (s.setReg x b).fault = s.fault := rfl
@[simp] theorem State.setReg_buzzer (x : Reg) (b : Byte) : (s.setReg x b).buzzer = s.buzzer := rfl
@[simp] theorem State.setReg_clearReq (x : Reg) (b : Byte) : (s.setReg x b).clearReq = s.clearReq := rfl
@[simp] theorem State.setReg_draws (x : Reg) (b : Byte) : (s.setReg x b).draws = s.draws := rfl
@[simp] theorem State.setReg_stackAt (x : Reg) (b : Byte) (k : Nat) : (s.setReg x b).stackAt k = s.stackAt k := rfl
@[simp] theorem State.setReg_keyDown (x : Reg) (b : Byte) (k : Nat) : (s.setReg x b).keyDown k = s.keyDown k := rfl
@[simp] theorem State.setReg_byteAt (x : Reg) (b : Byte) (m : Nat) : (s.setReg x b).byteAt m = s.byteAt m := rfl

/-! ### setI -/

@[simp] theorem State.setI_params (w : Word) : (s.setI w).params = s.params := rfl
@[simp] theorem State.setI_v (w : Word) : (s.setI w).v = s.v := rfl
@[simp] theorem State.setI_i (w : Word) : (s.setI w).i = w := rfl
@[simp] theorem State.setI_pc (w : Word) : (s.setI w).pc = s.pc := rfl
@[simp] theorem State.setI_stack (w : Word) : (s.setI w).stack = s.stack := rfl
@[simp] theorem State.setI_sp (w : Word) : (s.setI w).sp = s.sp := rfl
@[simp] theorem State.setI_dt (w : Word) : (s.setI w).dt = s.dt := rfl
@[simp] theorem State.setI_st (w : Word) : (s.setI w).st = s.st := rfl
@[simp] theorem State.setI_keys (w : Word) : (s.setI w).keys = s.keys := rfl
@[simp] theorem State.setI_display (w : Word) : (s.setI w).display = s.display := rfl
@[simp] theorem State.setI_mem (w : Word) : (s.setI w).mem = s.mem := rfl
@[simp] theorem State.setI_fault (w : Word) : (s.setI w).fault = s.fault := rfl
@[simp] theorem State.setI_buzzer (w : Word) : (s.setI w).buzzer = s.buzzer := rfl
@[simp] theorem State.setI_clearReq (w : Word) : (s.setI w).clearReq = s.clearReq := rfl
@[simp] theorem State.setI_draws (w : Word) : (s.setI w).draws = s.draws := rfl
@[simp] theorem State.setI_reg (w : Word) (r : Reg) : (s.setI w).reg r = s.reg r := rfl
@[simp] theorem State.setI_stackAt (w : Word) (k : Nat) : (s.setI w).stackAt k = s.stackAt k := rfl
@[simp] theorem State.setI_keyDown (w : Word) (k : Nat) : (s.setI w).keyDown k = s.keyDown k := rfl
@[simp] theorem State.setI_byteAt (w : Word) (m : Nat) : (s.setI w).byteAt m = s.byteAt m := rfl

/-! ### setPc -/

@[simp] theorem State.setPc_params (w : Word) : (s.setPc w).params = s.params := rfl
@[simp] theorem State.setPc_v (w : Word) : (s.setPc w).v = s.v := rfl
@[simp] theorem State.setPc_i (w : Word) : (s.setPc w).i = s.i := rfl
@[simp] theorem State.setPc_pc (w : Word) : (s.setPc w).pc = w := rfl
@[simp] theorem State.setPc_stack (w : Word) : (s.setPc w).stack = s.stack := rfl
@[simp] theorem State.setPc_sp (w : Word) : (s.setPc w).sp = s.sp := rfl
@[simp] theorem State.setPc_dt (w : Word) : (s.setPc w).dt = s.dt := rfl
@[simp] theorem State.setPc_st (w : Word) : (s.setPc w).st = s.st := rfl
@[simp] theorem State.setPc_keys (w : Word) : (s.setPc w).keys = s.keys := rfl
@[simp] theorem State.setPc_display (w : Word) : (s.setPc w).display = s.display := rfl
@[simp] theorem State.setPc_mem (w : Word) : (s.setPc w).mem = s.mem := rfl
@[simp] theorem State.setPc_fault (w : Word) : (s.setPc w).fault = s.fault := rfl
@[simp] theorem State.setPc_buzzer (w : Word) : (s.setPc w).buzzer = s.buzzer := rfl
@[simp] theorem State.setPc_clearReq (w : Word) : (s.setPc w).clearReq = s.clearReq := rfl
@[simp] theorem State.setPc_draws (w : Word) : (s.setPc w).draws = s.draws := rfl
@[simp] theorem State.setPc_reg (w : Word) (r : Reg) : (s.setPc w).reg r = s.reg r := rfl
@[simp] theorem State.setPc_stackAt (w : Word) (k : Nat) : (s.setPc w).stackAt k = s.stackAt k := rfl
@[simp] theorem State.setPc_keyDown (w : Word) (k : Nat) : (s.setPc w).keyDown k = s.keyDown k := rfl
@[simp] theorem State.setPc_byteAt (w : Word) (m : Nat) : (s.setPc w).byteAt m = s.byteAt m := rfl

/-! ### setDt -/

@[simp] theorem State.setDt_params (b : Byte) : (s.setDt b).params = s.params := rfl
@[simp] theorem State.setDt_v (b : Byte) : (s.setDt b).v = s.v := rfl
@[simp] theorem State.setDt_i (b : Byte) : (s.setDt b).i = s.i := rfl
@[simp] theorem State.setDt_pc (b : Byte) : (s.setDt b).pc = s.pc := rfl
@[simp] theorem State.setDt_stack (b : Byte) : (s.setDt b).stack = s.stack := rfl
@[simp] theorem State.setDt_sp (b : Byte) : (s.setDt b).sp = s.sp := rfl
@[simp] theorem State.setDt_dt (b : Byte) : (s.setDt b).dt = b := rfl
@[simp] theorem State.setDt_st (b : Byte) : (s.setDt b).st = s.st := rfl
@[simp] theorem State.setDt_keys (b : Byte) : (s.setDt b).keys = s.keys := rfl
@[simp] theorem State.setDt_display (b : Byte) : (s.setDt b).display = s.display := rfl
@[simp] theorem State.setDt_mem (b : Byte) : (s.setDt b).mem = s.mem := rfl
@[simp] theorem State.setDt_fault (b : Byte) : (s.setDt b).fault = s.fault := rfl
@[simp] theorem State.setDt_buzzer (b : Byte) : (s.setDt b).buzzer = s.buzzer := rfl
@[simp] theorem State.setDt_clearReq (b : Byte) : (s.setDt b).clearReq = s.clearReq := rfl
@[simp] theorem State.setDt_draws (b : Byte) : (s.setDt b).draws = s.draws := rfl
@[simp] theorem State.setDt_reg (b : Byte) (r : Reg) : (s.setDt b).reg r = s.reg r := rfl
@[simp] theorem State.setDt_stackAt (b : Byte) (k : Nat) : (s.setDt b).stackAt k = s.stackAt k := rfl
@[simp] theorem State.setDt_keyDown (b : Byte) (k : Nat) : (s.setDt b).keyDown k = s.keyDown k := rfl
@[simp] theorem State.setDt_byteAt (b : Byte) (m : Nat) : (s.setDt b).byteAt m = s.byteAt m := rfl

/-! ### setSt -/

@[simp] theorem State.setSt_params (b : Byte) : (s.setSt b).params = s.params := rfl
@[simp] theorem State.setSt_v (b : Byte) : (s.setSt b).v = s.v := rfl
@[simp] theorem State.setSt_i (b : Byte) : (s.setSt b).i = s.i := rfl
@[simp] theorem State.setSt_pc (b : Byte) : (s.setSt b).pc = s.pc := rfl
@[simp] theorem State.setSt_stack (b : Byte) : (s.setSt b).stack = s.stack := rfl
@[simp] theorem State.setSt_sp (b : Byte) : (s.setSt b).sp = s.sp := rfl
@[simp] theorem State.setSt_dt (b : Byte) : (s.setSt b).dt = s.dt := rfl
@[simp] theorem State.setSt_st (b : Byte) : (s.setSt b).st = b := rfl
@[simp] theorem State.setSt_keys (b : Byte) : (s.setSt b).keys = s.keys := rfl
@[simp] theorem State.setSt_display (b : Byte) : (s.setSt b).display = s.display := rfl
@[simp] theorem State.setSt_mem (b : Byte) : (s.setSt b).mem = s.mem := rfl
@[simp] theorem State.setSt_fault (b : Byte) : (s.setSt b).fault = s.fault := rfl
@[simp] theorem State.setSt_buzzer (b : Byte) : (s.setSt b).buzzer = s.buzzer := rfl
@[simp] theorem State.setSt_clearReq (b : Byte) : (s.setSt b).clearReq = s.clearReq := rfl
@[simp] theorem State.setSt_draws (b : Byte) : (s.setSt b).draws = s.draws := rfl
@[simp] theorem State.setSt_reg (b : Byte) (r : Reg) : (s.setSt b).reg r = s.reg r := rfl
@[simp] theorem State.setSt_stackAt (b : Byte) (k : Nat) : (s.setSt b).stackAt k = s.stackAt k := rfl
@[simp] theorem State.setSt_keyDown (b : Byte) (k : Nat) : (s.setSt b).keyDown k = s.keyDown k := rfl
@[simp] theorem State.setSt_byteAt (b : Byte) (m : Nat) : (s.setSt b).byteAt m = s.byteAt m := rfl

/-! ### advance -/

@[simp] theorem State.advance_params : s.advance.params = s.params := rfl
@[simp] theorem State.advance_v : s.advance.v = s.v := rfl
@[simp] theorem State.advance_i : s.advance.i = s.i := rfl
@[simp] theorem State.advance_pc : s.advance.pc = s.pc + 2#16 := rfl
@[simp] theorem State.advance_stack : s.advance.stack = s.stack := rfl
@[simp] theorem State.advance_sp : s.advance.sp = s.sp := rfl
@[simp] theorem State.advance_dt : s.advance.dt = s.dt := rfl
@[simp] theorem State.advance_st : s.advance.st = s.st := rfl
@[simp] theorem State.advance_keys : s.advance.keys = s.keys := rfl
@[simp] theorem State.advance_display : s.advance.display = s.display := rfl
@[simp] theorem State.advance_mem : s.advance.mem = s.mem := rfl
@[simp] theorem State.advance_fault : s.advance.fault = s.fault := rfl
@[simp] theorem State.advance_buzzer : s.advance.buzzer = s.buzzer := rfl
@[simp] theorem State.advance_clearReq : s.advance.clearReq = s.clearReq := rfl
@[simp] theorem State.advance_draws : s.advance.draws = s.draws := rfl
@[simp] theorem State.advance_reg (r : Reg) : s.advance.reg r = s.reg r := rfl
@[simp] theorem State.advance_stackAt (k : Nat) : s.advance.stackAt k = s.stackAt k := rfl
@[simp] theorem State.advance_keyDown (k : Nat) : s.advance.keyDown k = s.keyDown k := rfl
@[simp] theorem State.advance_byteAt (m : Nat) : s.advance.byteAt m = s.byteAt m := rfl

/-! ### skipIf -/

@[simp] theorem State.skipIf_params (c : Bool) : (s.skipIf c).params = s.params := rfl
@[simp] theorem State.skipIf_v (c : Bool) : (s.skipIf c).v = s.v := rfl
@[simp] theorem State.skipIf_i (c : Bool) : (s.skipIf c).i = s.i := rfl
@[simp] theorem State.skipIf_pc (c : Bool) : (s.skipIf c).pc = s.pc + if c then 4#16 else 2#16 := rfl
@[simp] theorem State.skipIf_stack (c : Bool) : (s.skipIf c).stack = s.stack := rfl
@[simp] theorem State.skipIf_sp (c : Bool) : (s.skipIf c).sp = s.sp := rfl
@[simp] theorem State.skipIf_dt (c : Bool) : (s.skipIf c).dt = s.dt := rfl
@[simp] theorem State.skipIf_st (c : Bool) : (s.skipIf c).st = s.st := rfl
@[simp] theorem State.skipIf_keys (c : Bool) : (s.skipIf c).keys = s.keys := rfl
@[simp] theorem State.skipIf_display (c : Bool) : (s.skipIf c).display = s.display := rfl
@[simp] theorem State.skipIf_mem (c : Bool) : (s.skipIf c).mem = s.mem := rfl
@[simp] theorem State.skipIf_fault (c : Bool) : (s.skipIf c).fault = s.fault := rfl
@[simp] theorem State.skipIf_buzzer (c : Bool) : (s.skipIf c).buzzer = s.buzzer := rfl
@[simp] theorem State.skipIf_clearReq (c : Bool) : (s.skipIf c).clearReq = s.clearReq := rfl
@[simp] theorem State.skipIf_draws (c : Bool) : (s.skipIf c).draws = s.draws := rfl
@[simp] theorem State.skipIf_reg (c : Bool) (r : Reg) : (s.skipIf c).reg r = s.reg r := rfl
@[simp] theorem State.skipIf_stackAt (c : Bool) (k : Nat) : (s.skipIf c).stackAt k = s.stackAt k := rfl
@[simp] theorem State.skipIf_keyDown (c : Bool) (k : Nat) : (s.skipIf c).keyDown k = s.keyDown k := rfl
@[simp] theorem State.skipIf_byteAt (c : Bool) (m : Nat) : (s.skipIf c).byteAt m = s.byteAt m := rfl

/-! ### loadRegs -/

@[simp] theorem State.loadRegs_params (bs : List Byte) : (s.loadRegs bs).params = s.params := rfl
@[simp] theorem State.loadRegs_v (bs : List Byte) : (s.loadRegs bs).v = loadRegsFrom s.v 0 bs := rfl
@[simp] theorem State.loadRegs_i (bs : List Byte) : (s.loadRegs bs).i = s.i := rfl
@[simp] theorem State.loadRegs_pc (bs : List Byte) : (s.loadRegs bs).pc = s.pc := rfl
@[simp] theorem State.loadRegs_stack (bs : List Byte) : (s.loadRegs bs).stack = s.stack := rfl
@[simp] theorem State.loadRegs_sp (bs : List Byte) : (s.loadRegs bs).sp = s.sp := rfl
@[simp] theorem State.loadRegs_dt (bs : List Byte) : (s.loadRegs bs).dt = s.dt := rfl
@[simp] theorem State.loadRegs_st (bs : List Byte) : (s.loadRegs bs).st = s.st := rfl
@[simp] theorem State.loadRegs_keys (bs : List Byte) : (s.loadRegs bs).keys = s.keys := rfl
@[simp] theorem State.loadRegs_display (bs : List Byte) : (s.loadRegs bs).display = s.display := rfl
@[simp] theorem State.loadRegs_mem (bs : List Byte) : (s.loadRegs bs).mem = s.mem := rfl
@[simp] theorem State.loadRegs_fault (bs : List Byte) : (s.loadRegs bs).fault = s.fault := rfl
@[simp] theorem State.loadRegs_buzzer (bs : List Byte) : (s.loadRegs bs).buzzer = s.buzzer := rfl
@[simp] theorem State.loadRegs_clearReq (bs : List Byte) : (s.loadRegs bs).clearReq = s.clearReq := rfl
@[simp] theorem State.loadRegs_draws (bs : List Byte) : (s.loadRegs bs).draws = s.draws := rfl
@[simp] theorem State.loadRegs_stackAt (bs : List Byte) (k : Nat) : (s.loadRegs bs).stackAt k = s.stackAt k := rfl
@[simp] theorem State.loadRegs_keyDown (bs : List Byte) (k : Nat) : (s.loadRegs bs).keyDown k = s.keyDown k := rfl
@[simp] theorem State.loadRegs_byteAt (bs : List Byte) (m : Nat) : (s.loadRegs bs).byteAt m = s.byteAt m := rfl

/-! ### push -/

@[simp] theorem State.push_params (w : Word) : (s.push w).params = s.params := rfl
@[simp] theorem State.push_v (w : Word) : (s.push w).v = s.v := rfl
@[simp] theorem State.push_i (w : Word) : (s.push w).i = s.i := rfl
@[simp] theorem State.push_pc (w : Word) : (s.push w).pc = s.pc := rfl
theorem State.push_stack (w : Word) : (s.push w).stack = s.stack.setIfInBounds s.sp.val w := rfl
theorem State.push_sp (w : Word) : (s.push w).sp = Fin.ofNat 17 (s.sp.val + 1) := rfl
@[simp] theorem State.push_dt (w : Word) : (s.push w).dt = s.dt := rfl
@[simp] theorem State.push_st (w : Word) : (s.push w).st = s.st := rfl
@[simp] theorem State.push_keys (w : Word) : (s.push w).keys = s.keys := rfl
@[simp] theorem State.push_display (w : Word) : (s.push w).display = s.display := rfl
@[simp] theorem State.push_mem (w : Word) : (s.push w).mem = s.mem := rfl
@[simp] theorem State.push_fault (w : Word) : (s.push w).fault = s.fault := rfl
@[simp] theorem State.push_buzzer (w : Word) : (s.push w).buzzer = s.buzzer := rfl
@[simp] theorem State.push_clearReq (w : Word) : (s.push w).clearReq = s.clearReq := rfl
@[simp] theorem State.push_draws (w : Word) : (s.push w).draws = s.draws := rfl
@[simp] theorem State.push_reg (w : Word) (r : Reg) : (s.push w).reg r = s.reg r := rfl
@[simp] theorem State.push_keyDown (w : Word) (k : Nat) : (s.push w).keyDown k = s.keyDown k := rfl
@[simp] theorem State.push_byteAt (w : Word) (m : Nat) : (s.push w).byteAt m = s.byteAt m := rfl

/-! ### pop -/

@[simp] theorem State.pop_params : s.pop.params = s.params := rfl
@[simp] theorem State.pop_v : s.pop.v = s.v := rfl
@[simp] theorem State.pop_i : s.pop.i = s.i := rfl
@[simp] theorem State.pop_pc : s.pop.pc = s.pc := rfl
@[simp] theorem State.pop_stack : s.pop.stack = s.stack := rfl
theorem State.pop_sp : s.pop.sp = Fin.ofNat 17 (s.sp.val - 1) := rfl
@[simp] theorem State.pop_dt : s.pop.dt = s.dt := rfl
@[simp] theorem State.pop_st : s.pop.st = s.st := rfl
@[simp] theorem State.pop_keys : s.pop.keys = s.keys := rfl
@[simp] theorem State.pop_display : s.pop.display = s.display := rfl
@[simp] theorem State.pop_mem : s.pop.mem = s.mem := rfl
@[simp] theorem State.pop_fault : s.pop.fault = s.fault := rfl
@[simp] theorem State.pop_buzzer : s.pop.buzzer = s.buzzer := rfl
@[simp] theorem State.pop_clearReq : s.pop.clearReq = s.clearReq := rfl
@[simp] theorem State.pop_draws : s.pop.draws = s.draws := rfl
@[simp] theorem State.pop_reg (r : Reg) : s.pop.reg r = s.reg r := rfl
@[simp] theorem State.pop_stackAt (k : Nat) : s.pop.stackAt k = s.stackAt k := rfl
@[simp] theorem State.pop_keyDown (k : Nat) : s.pop.keyDown k = s.keyDown k := rfl
@[simp] theorem State.pop_byteAt (m : Nat) : s.pop.byteAt m = s.byteAt m := rfl

/-! ### storeBytes -/

@[simp] theorem State.storeBytes_params (a : Nat) (bs : List Byte) : (s.storeBytes a bs).params = s.params := rfl
@[simp] theorem State.storeBytes_v (a : Nat) (bs : List Byte) : (s.storeBytes a bs).v = s.v := rfl
@[simp] theorem State.storeBytes_i (a : Nat) (bs : List Byte) : (s.storeBytes a bs).i = s.i := rfl
@[simp] theorem State.storeBytes_pc (a : Nat) (bs : List Byte) : (s.storeBytes a bs).pc = s.pc := rfl
@[simp] theorem State.storeBytes_stack (a : Nat) (bs : List Byte) : (s.storeBytes a bs).stack = s.stack := rfl
@[simp] theorem State.storeBytes_sp (a : Nat) (bs : List Byte) : (s.storeBytes a bs).sp = s.sp := rfl
@[simp] theorem State.storeBytes_dt (a : Nat) (bs : List Byte) : (s.storeBytes a bs).dt = s.dt := rfl
@[simp] theorem State.storeBytes_st (a : Nat) (bs : List Byte) : (s.storeBytes a bs).st = s.st := rfl
@[simp] theorem State.storeBytes_keys (a : Nat) (bs : List Byte) : (s.storeBytes a bs).keys = s.keys := rfl
@[simp] theorem State.storeBytes_display (a : Nat) (bs : List Byte) : (s.storeBytes a bs).display = s.display := rfl
@[simp] theorem State.storeBytes_mem (a : Nat) (bs : List Byte) : (s.storeBytes a bs).mem = s.mem.writeBytes a bs := rfl
@[simp] theorem State.storeBytes_fault (a : Nat) (bs : List Byte) : (s.storeBytes a bs).fault = s.fault := rfl
@[simp] theorem State.storeBytes_buzzer (a : Nat) (bs : List Byte) : (s.storeBytes a bs).buzzer = s.buzzer := rfl
@[simp] theorem State.storeBytes_clearReq (a : Nat) (bs : List Byte) : (s.storeBytes a bs).clearReq = s.clearReq := rfl
@[simp] theorem State.storeBytes_draws (a : Nat) (bs : List Byte) : (s.storeBytes a bs).draws = s.draws := rfl
@[simp] theorem State.storeBytes_reg (a : Nat) (bs : List Byte) (r : Reg) : (s.storeBytes a bs).reg r = s.reg r := rfl
@[simp] theorem State.storeBytes_stackAt (a : Nat) (bs : List Byte) (k : Nat) : (s.storeBytes a bs).stackAt k = s.stackAt k := rfl
@[simp] theorem State.storeBytes_keyDown (a : Nat) (bs : List Byte) (k : Nat) : (s.storeBytes a bs).keyDown k = s.keyDown k := rfl

/-! ### takeFault -/

@[simp] theorem State.takeFault_params (c : FaultCause) (w : Option Word) : (s.takeFault c w).params = s.params := rfl
@[simp] theorem State.takeFault_v (c : FaultCause) (w : Option Word) : (s.takeFault c w).v = s.v := rfl
@[simp] theorem State.takeFault_i (c : FaultCause) (w : Option Word) : (s.takeFault c w).i = s.i := rfl
@[simp] theorem State.takeFault_pc (c : FaultCause) (w : Option Word) : (s.takeFault c w).pc = s.pc := rfl
@[simp] theorem State.takeFault_stack (c : FaultCause) (w : Option Word) : (s.takeFault c w).stack = s.stack := rfl
@[simp] theorem State.takeFault_sp (c : FaultCause) (w : Option Word) : (s.takeFault c w).sp = s.sp := rfl
@[simp] theorem State.takeFault_dt (c : FaultCause) (w : Option Word) : (s.takeFault c w).dt = s.dt := rfl
@[simp] theorem State.takeFault_st (c : FaultCause) (w : Option Word) : (s.takeFault c w).st = s.st := rfl
@[simp] theorem State.takeFault_keys (c : FaultCause) (w : Option Word) : (s.takeFault c w).keys = s.keys := rfl
@[simp] theorem State.takeFault_display (c : FaultCause) (w : Option Word) : (s.takeFault c w).display = s.display := rfl
@[simp] theorem State.takeFault_mem (c : FaultCause) (w : Option Word) : (s.takeFault c w).mem = s.mem := rfl
@[simp] theorem State.takeFault_fault (c : FaultCause) (w : Option Word) : (s.takeFault c w).fault = some ⟨c.code, s.pc, w, c.info⟩ := rfl
@[simp] theorem State.takeFault_buzzer (c : FaultCause) (w : Option Word) : (s.takeFault c w).buzzer = false := rfl
@[simp] theorem State.takeFault_clearReq (c : FaultCause) (w : Option Word) : (s.takeFault c w).clearReq = false := rfl
@[simp] theorem State.takeFault_draws (c : FaultCause) (w : Option Word) : (s.takeFault c w).draws = s.draws := rfl
@[simp] theorem State.takeFault_reg (c : FaultCause) (w : Option Word) (r : Reg) : (s.takeFault c w).reg r = s.reg r := rfl
@[simp] theorem State.takeFault_stackAt (c : FaultCause) (w : Option Word) (k : Nat) : (s.takeFault c w).stackAt k = s.stackAt k := rfl
@[simp] theorem State.takeFault_keyDown (c : FaultCause) (w : Option Word) (k : Nat) : (s.takeFault c w).keyDown k = s.keyDown k := rfl
@[simp] theorem State.takeFault_byteAt (c : FaultCause) (w : Option Word) (m : Nat) : (s.takeFault c w).byteAt m = s.byteAt m := rfl

/-! ### clearOutputs -/

@[simp] theorem State.clearOutputs_params : s.clearOutputs.params = s.params := rfl
@[simp] theorem State.clearOutputs_v : s.clearOutputs.v = s.v := rfl
@[simp] theorem State.clearOutputs_i : s.clearOutputs.i = s.i := rfl
@[simp] theorem State.clearOutputs_pc : s.clearOutputs.pc = s.pc := rfl
@[simp] theorem State.clearOutputs_stack : s.clearOutputs.stack = s.stack := rfl
@[simp] theorem State.clearOutputs_sp : s.clearOutputs.sp = s.sp := rfl
@[simp] theorem State.clearOutputs_dt : s.clearOutputs.dt = s.dt := rfl
@[simp] theorem State.clearOutputs_st : s.clearOutputs.st = s.st := rfl
@[simp] theorem State.clearOutputs_keys : s.clearOutputs.keys = s.keys := rfl
@[simp] theorem State.clearOutputs_display : s.clearOutputs.display = s.display := rfl
@[simp] theorem State.clearOutputs_mem : s.clearOutputs.mem = s.mem := rfl
@[simp] theorem State.clearOutputs_fault : s.clearOutputs.fault = s.fault := rfl
@[simp] theorem State.clearOutputs_buzzer : s.clearOutputs.buzzer = false := rfl
@[simp] theorem State.clearOutputs_clearReq : s.clearOutputs.clearReq = false := rfl
@[simp] theorem State.clearOutputs_draws : s.clearOutputs.draws = s.draws := rfl
@[simp] theorem State.clearOutputs_reg (r : Reg) : s.clearOutputs.reg r = s.reg r := rfl
@[simp] theorem State.clearOutputs_stackAt (k : Nat) : s.clearOutputs.stackAt k = s.stackAt k := rfl
@[simp] theorem State.clearOutputs_keyDown (k : Nat) : s.clearOutputs.keyDown k = s.keyDown k := rfl
@[simp] theorem State.clearOutputs_byteAt (m : Nat) : s.clearOutputs.byteAt m = s.byteAt m := rfl

/-! ### tick -/

@[simp] theorem State.tick_params : s.tick.params = s.params := rfl
@[simp] theorem State.tick_v : s.tick.v = s.v := rfl
@[simp] theorem State.tick_i : s.tick.i = s.i := rfl
@[simp] theorem State.tick_pc : s.tick.pc = s.pc := rfl
@[simp] theorem State.tick_stack : s.tick.stack = s.stack := rfl
@[simp] theorem State.tick_sp : s.tick.sp = s.sp := rfl
@[simp] theorem State.tick_dt : s.tick.dt = tickDown s.dt := rfl
@[simp] theorem State.tick_st : s.tick.st = tickDown s.st := rfl
@[simp] theorem State.tick_keys : s.tick.keys = s.keys := rfl
@[simp] theorem State.tick_display : s.tick.display = s.display := rfl
@[simp] theorem State.tick_mem : s.tick.mem = s.mem := rfl
@[simp] theorem State.tick_fault : s.tick.fault = s.fault := rfl
@[simp] theorem State.tick_buzzer : s.tick.buzzer = (s.buzzer || s.st == 0x01#8) := rfl
@[simp] theorem State.tick_clearReq : s.tick.clearReq = s.clearReq := rfl
@[simp] theorem State.tick_draws : s.tick.draws = s.draws := rfl
@[simp] theorem State.tick_reg (r : Reg) : s.tick.reg r = s.reg r := rfl
@[simp] theorem State.tick_stackAt (k : Nat) : s.tick.stackAt k = s.stackAt k := rfl
@[simp] theorem State.tick_keyDown (k : Nat) : s.tick.keyDown k = s.keyDown k := rfl
@[simp] theorem State.tick_byteAt (m : Nat) : s.tick.byteAt m = s.byteAt m := rfl

/-! ### writeKeys -/

@[simp] theorem State.writeKeys_params (ks : Vector Bool 16) : (s.writeKeys ks).params = s.params := rfl
@[simp] theorem State.writeKeys_v (ks : Vector Bool 16) : (s.writeKeys ks).v = s.v := rfl
@[simp] theorem State.writeKeys_i (ks : Vector Bool 16) : (s.writeKeys ks).i = s.i := rfl
@[simp] theorem State.writeKeys_pc (ks : Vector Bool 16) : (s.writeKeys ks).pc = s.pc := rfl
@[simp] theorem State.writeKeys_stack (ks : Vector Bool 16) : (s.writeKeys ks).stack = s.stack := rfl
@[simp] theorem State.writeKeys_sp (ks : Vector Bool 16) : (s.writeKeys ks).sp = s.sp := rfl
@[simp] theorem State.writeKeys_dt (ks : Vector Bool 16) : (s.writeKeys ks).dt = s.dt := rfl
@[simp] theorem State.writeKeys_st (ks : Vector Bool 16) : (s.writeKeys ks).st = s.st := rfl
@[simp] theorem State.writeKeys_keys (ks : Vector Bool 16) : (s.writeKeys ks).keys = ks := rfl
@[simp] theorem State.writeKeys_display (ks : Vector Bool 16) : (s.writeKeys ks).display = s.display := rfl
@[simp] theorem State.writeKeys_mem (ks : Vector Bool 16) : (s.writeKeys ks).mem = s.mem := rfl
@[simp] theorem State.writeKeys_fault (ks : Vector Bool 16) : (s.writeKeys ks).fault = s.fault := rfl
@[simp] theorem State.writeKeys_buzzer (ks : Vector Bool 16) : (s.writeKeys ks).buzzer = s.buzzer := rfl
@[simp] theorem State.writeKeys_clearReq (ks : Vector Bool 16) : (s.writeKeys ks).clearReq = s.clearReq := rfl
@[simp] theorem State.writeKeys_draws (ks : Vector Bool 16) : (s.writeKeys ks).draws = s.draws := rfl
@[simp] theorem State.writeKeys_reg (ks : Vector Bool 16) (r : Reg) : (s.writeKeys ks).reg r = s.reg r := rfl
@[simp] theorem State.writeKeys_stackAt (ks : Vector Bool 16) (k : Nat) : (s.writeKeys ks).stackAt k = s.stackAt k := rfl
@[simp] theorem State.writeKeys_byteAt (ks : Vector Bool 16) (m : Nat) : (s.writeKeys ks).byteAt m = s.byteAt m := rfl

end Sys2Proof.Machine
end

