-- ==== Sys2Proof/Laws/Ops.lean ====
section
/-! SUPPORT. One lemma per shared operation of Machine/Ops.lean, Operands.lean and Flags.lean that says what it does. -/

namespace Sys2Proof.Machine

/-! ## Registers -/

theorem Reg.toNat_lt (x : Reg) : x.toNat < 16 := x.isLt

theorem Reg.eq_of_toNat {x y : Reg} (h : x.toNat = y.toNat) : x = y := BitVec.eq_of_toNat_eq h

@[simp] theorem reg_setReg (s : State) (x r : Reg) (b : Byte) :
    (s.setReg x b).reg r = if r = x then b else s.reg r := by
  unfold State.reg State.setReg
  by_cases h : r = x
  · subst h; simp
  · have : x.toNat ≠ r.toNat := fun e => h (Reg.eq_of_toNat e.symm)
    simp [h, Vector.getElem_set_ne _ _ this]

theorem setFlag_eq (s : State) (f : Bool) : s.setFlag f = s.setReg regF (flagByte f) := rfl

/-- The registers after a flagged commit (R120): VF gets the flag unless the destination is VF and FLAG_ORDER is
`flag_then_result`. -/
theorem reg_commitFlagged (s : State) (d q : Reg) (r : Byte) (f : Bool) :
    (s.commitFlagged d r f).reg q =
      if q = regF then (if d = regF ∧ s.params.flagOrder = .flagThenResult then r else flagByte f)
      else if q = d then r else s.reg q := by
  unfold State.commitFlagged State.setFlag
  cases s.params.flagOrder <;> simp only [reg_setReg] <;> by_cases h1 : q = regF <;> by_cases h2 : q = d <;>
    simp_all [eq_comm]

/-- A flagged commit changes registers only. -/
theorem commitFlagged_eq (s : State) (d : Reg) (r : Byte) (f : Bool) :
    s.commitFlagged d r f = { s with v := (s.commitFlagged d r f).v } := by
  unfold State.commitFlagged
  split <;> rfl

theorem loadRegsFrom_get : ∀ (bs : List Byte) (v : Vector Byte 16) (k j : Nat) (hj : j < 16),
    (loadRegsFrom v k bs)[j] = if k ≤ j ∧ j < k + bs.length then bs.getD (j - k) 0 else v[j]
  | [], v, k, j, hj => by
    simp [loadRegsFrom]
  | b :: bs, v, k, j, hj => by
    rw [loadRegsFrom, loadRegsFrom_get bs _ (k + 1) j hj, Vector.getElem_setIfInBounds hj]
    simp only [List.length_cons]
    by_cases h1 : k = j
    · subst h1; simp
    · by_cases h2 : k + 1 ≤ j ∧ j < k + 1 + bs.length
      · have hs : j - k = j - (k + 1) + 1 := by omega
        rw [if_pos h2, if_pos (by omega), hs, List.getD_cons_succ]
      · rw [if_neg h2, if_neg h1, if_neg (by omega)]

/-- `V[0]`, ..., get the bytes, the registers past them stay (R145). -/
theorem reg_loadRegs (s : State) (bs : List Byte) (r : Reg) :
    (s.loadRegs bs).reg r = if r.toNat < bs.length then bs.getD r.toNat 0 else s.reg r := by
  have := loadRegsFrom_get bs s.v 0 r.toNat r.isLt
  simpa [State.reg, State.loadRegs] using this

@[simp] theorem length_regBytes (s : State) (n : Nat) : (s.regBytes n).length = n := by
  simp [State.regBytes]

theorem regBytes_getD (s : State) (n : Nat) (r : Reg) (h : r.toNat < n) : (s.regBytes n).getD r.toNat 0 = s.reg r := by
  simp [State.regBytes, List.getD_eq_getElem?_getD, h]

/-! ## Call stack -/

theorem stackAt_push (s : State) (w : Word) (k : Nat) (h : s.sp.val < 16) :
    (s.push w).stackAt k = if k = s.sp.val then w else s.stackAt k := by
  unfold State.stackAt State.push
  by_cases hk : k < 16
  · by_cases he : k = s.sp.val
    · subst he; simp [hk]
    · simp [hk, he, Ne.symm he]
  · have : k ≠ s.sp.val := by omega
    simp [hk, this]

theorem sp_push (s : State) (w : Word) (h : s.sp.val < 16) : (s.push w).sp.val = s.sp.val + 1 := by
  simp [State.push, Fin.ofNat]; omega

theorem sp_pop (s : State) : s.pop.sp.val = s.sp.val - 1 := by
  have := s.sp.isLt
  simp [State.pop, Fin.ofNat]; omega

/-! ## Keys -/

theorem highestKeyBelow_some (s : State) : ∀ (n k : Nat), s.highestKeyBelow n = some k →
    k < n ∧ s.keyDown k = true ∧ ∀ j, k < j → j < n → s.keyDown j = false
  | 0, k, h => by simp [State.highestKeyBelow] at h
  | n + 1, k, h => by
    unfold State.highestKeyBelow at h
    split at h
    · rename_i hd
      cases h
      exact ⟨by omega, hd, fun j _ _ => by omega⟩
    · rename_i hd
      obtain ⟨h1, h2, h3⟩ := highestKeyBelow_some s n k h
      refine ⟨by omega, h2, fun j hj hn => ?_⟩
      by_cases he : j = n
      · subst he; simpa using hd
      · exact h3 j hj (by omega)

theorem highestKeyBelow_none (s : State) : ∀ n : Nat,
    s.highestKeyBelow n = none ↔ ∀ j, j < n → s.keyDown j = false
  | 0 => by simp [State.highestKeyBelow]
  | n + 1 => by
    unfold State.highestKeyBelow
    by_cases hd : s.keyDown n = true
    · simp only [hd, if_true]
      constructor
      · intro h; cases h
      · intro h; simp [h n (by omega)] at hd
    · rw [if_neg hd, highestKeyBelow_none s n]
      simp only [Bool.not_eq_true] at hd
      constructor
      · intro h j hj
        by_cases he : j = n
        · subst he; exact hd
        · exact h j (by omega)
      · intro h j hj; exact h j (by omega)

/-! ## Display -/

theorem cell_setCell (d : Display) (p q : Pixel) (b : Byte) :
    Display.cell (Display.setCell d p b) q = if q = p then b else Display.cell d q := by
  unfold Display.cell Display.setCell
  by_cases hy : q.y = p.y
  · by_cases hx : q.x = p.x
    · have : q = p := by cases q; cases p; simp_all
      simp [this]
    · have hne : q ≠ p := fun h => hx (by rw [h])
      have hv : p.x.val ≠ q.x.val := fun h => hx (Fin.ext h.symm)
      simp [hne, hy, Vector.getElem_set_ne _ _ hv]
  · have hne : q ≠ p := fun h => hy (by rw [h])
    have hv : p.y.val ≠ q.y.val := fun h => hy (Fin.ext h.symm)
    simp [hne, Vector.getElem_set_ne _ _ hv]

@[simp] theorem cell_displayClear (p : Pixel) : Display.cell displayClear p = 0x00#8 := by
  simp [Display.cell, displayClear]

theorem cell_foldl_toggle (old : Display) : ∀ (hits : List Pixel) (d : Display) (q : Pixel),
    Display.cell (hits.foldl (fun d p => Display.setCell d p (cellToggled (Display.cell old p))) d) q =
      if q ∈ hits then cellToggled (Display.cell old q) else Display.cell d q
  | [], d, q => by simp
  | p :: hits, d, q => by
    rw [List.foldl_cons, cell_foldl_toggle old hits, cell_setCell]
    by_cases h1 : q ∈ hits
    · simp [h1]
    · by_cases h2 : q = p
      · subst h2; simp
      · simp [h1, h2]

/-- A hit cell is toggled from its old value, every other cell stays (R150). -/
theorem cell_toggleHits (old : Display) (hits : List Pixel) (q : Pixel) :
    Display.cell (toggleHits old hits) q =
      if q ∈ hits then cellToggled (Display.cell old q) else Display.cell old q :=
  cell_foldl_toggle old hits old q

/-- The collision flag looks at the set of hits only, not at their order (R153). -/
theorem collisionFlag_iff (old : Display) (hits : List Pixel) :
    collisionFlag old hits = true ↔ ∃ p ∈ hits, cellOn (Display.cell old p) = true := by
  simp [collisionFlag]

/-! ## Memory -/

theorem memRead_ok (s : State) (a : Nat) (b : Byte) : s.memRead a = .ok b ↔ a ≤ 0xFFF ∧ b = s.byteAt a := by
  unfold State.memRead
  split
  · simp; omega
  · simp [eq_comm]; omega

/-- Every address readable: the bytes, in order (R54, R58). -/
theorem memReadAll_ok (s : State) : ∀ l : List Nat, (∀ a ∈ l, a ≤ 0xFFF) → s.memReadAll l = .ok (l.map s.byteAt)
  | [], _ => rfl
  | a :: l, h => by
    have ha : ¬ a > 0xFFF := by have := h a (by simp); omega
    simp [State.memReadAll, State.memRead, ha, memReadAll_ok s l fun b hb => h b (by simp [hb])]

/-- The first address above 0xFFF names the fault (R54, R207). -/
theorem memReadAll_error (s : State) : ∀ (l : List Nat) (a : Nat) (r : List Nat), (∀ b ∈ l, b ≤ 0xFFF) → a > 0xFFF →
    s.memReadAll (l ++ a :: r) = .error ⟨.memReadOob, some a⟩
  | [], a, r, _, ha => by simp [State.memReadAll, State.memRead, ha]
  | b :: l, a, r, h, ha => by
    have hb : ¬ b > 0xFFF := by have := h b (by simp); omega
    simp [State.memReadAll, State.memRead, hb, memReadAll_error s l a r (fun c hc => h c (by simp [hc])) ha]

/-- All that reading addresses can answer. -/
theorem memReadAll_cases (s : State) (l : List Nat) :
    ((∀ a ∈ l, a ≤ 0xFFF) ∧ s.memReadAll l = .ok (l.map s.byteAt)) ∨
    ∃ a ∈ l, a > 0xFFF ∧ s.memReadAll l = .error ⟨.memReadOob, some a⟩ := by
  induction l with
  | nil => exact .inl ⟨by simp, rfl⟩
  | cons a l ih =>
    by_cases ha : a > 0xFFF
    · exact .inr ⟨a, by simp, ha, by simp [State.memReadAll, State.memRead, ha]⟩
    · rcases ih with ⟨h1, h2⟩ | ⟨b, hb, hgt, h2⟩
      · refine .inl ⟨?_, by simp [State.memReadAll, State.memRead, ha, h2]⟩
        intro c hc
        rcases List.mem_cons.1 hc with rfl | hc
        · omega
        · exact h1 c hc
      · exact .inr ⟨b, by simp [hb], hgt, by simp [State.memReadAll, State.memRead, ha, h2]⟩

/-- An address an instruction may write (R55). -/
def State.writable (s : State) (a : Nat) : Prop := a ≤ 0xFFF ∧ ¬ (a ≤ 0x04F ∧ s.params.fontWrite = .fault)

theorem checkWrite_ok (s : State) (a : Nat) (h : s.writable a) : s.checkWrite a = .ok () := by
  unfold State.checkWrite
  rw [if_neg (by have := h.1; omega), if_neg h.2]

theorem checkWriteAll_ok (s : State) : ∀ l : List Nat, (∀ a ∈ l, s.writable a) → s.checkWriteAll l = .ok ()
  | [], _ => rfl
  | a :: l, h => by
    simp [State.checkWriteAll, checkWrite_ok s a (h a (by simp)), checkWriteAll_ok s l fun b hb => h b (by simp [hb])]

/-- The first address that may not be written names the fault (R55, R207). -/
theorem checkWriteAll_error (s : State) (c : FaultCause) : ∀ (l : List Nat) (a : Nat) (r : List Nat),
    (∀ b ∈ l, s.writable b) → s.checkWrite a = .error c → s.checkWriteAll (l ++ a :: r) = .error c
  | [], a, r, _, ha => by simp [State.checkWriteAll, ha]
  | b :: l, a, r, h, ha => by
    simp [State.checkWriteAll, checkWrite_ok s b (h b (by simp)),
      checkWriteAll_error s c l a r (fun d hd => h d (by simp [hd])) ha]

/-- All that checking writes can answer. -/
theorem checkWriteAll_cases (s : State) (l : List Nat) :
    ((∀ a ∈ l, s.writable a) ∧ s.checkWriteAll l = .ok ()) ∨
    (∃ a ∈ l, a > 0xFFF ∧ s.checkWriteAll l = .error ⟨.memWriteOob, some a⟩) ∨
    (∃ a ∈ l, a ≤ 0x04F ∧ s.params.fontWrite = .fault ∧ s.checkWriteAll l = .error ⟨.fontWrite, some a⟩) := by
  induction l with
  | nil => exact .inl ⟨by simp, rfl⟩
  | cons a l ih =>
    by_cases h1 : a > 0xFFF
    · exact .inr (.inl ⟨a, by simp, h1, by simp [State.checkWriteAll, State.checkWrite, h1]⟩)
    · by_cases h2 : a ≤ 0x04F ∧ s.params.fontWrite = .fault
      · exact .inr (.inr ⟨a, by simp, h2.1, h2.2, by simp [State.checkWriteAll, State.checkWrite, h1, h2]⟩)
      · have hw : s.writable a := ⟨by omega, h2⟩
        have hc := checkWrite_ok s a hw
        rcases ih with ⟨g1, g2⟩ | ⟨b, hb, hgt, g2⟩ | ⟨b, hb, hle, hp, g2⟩
        · refine .inl ⟨?_, by simp [State.checkWriteAll, hc, g2]⟩
          intro c hm
          rcases List.mem_cons.1 hm with rfl | hm
          · exact hw
          · exact g1 c hm
        · exact .inr (.inl ⟨b, by simp [hb], hgt, by simp [State.checkWriteAll, hc, g2]⟩)
        · exact .inr (.inr ⟨b, by simp [hb], hle, hp, by simp [State.checkWriteAll, hc, g2]⟩)

/-- A byte after stores inside memory. -/
theorem byteAt_storeBytes (s : State) (a x : Nat) (bs : List Byte) (h : a + bs.length ≤ memSize) (hw : s.mem.wf) :
    (s.storeBytes a bs).byteAt x = if a ≤ x ∧ x < a + bs.length then bs.getD (x - a) 0 else s.byteAt x :=
  Memory.read_writeBytes bs s.mem a x h hw

/-- The data addresses `I` to `I + n - 1`. -/
theorem mem_dataAddrs (s : State) (n a : Nat) : a ∈ s.dataAddrs n ↔ s.i.toNat ≤ a ∧ a < s.i.toNat + n := by
  simp only [State.dataAddrs, State.dataAddr, List.mem_map, List.mem_range]
  constructor
  · rintro ⟨k, hk, rfl⟩; omega
  · intro h; exact ⟨a - s.i.toNat, by omega, by omega⟩

/-- The data addresses split at any one of them: what lies before it is accessed first. -/
theorem dataAddrs_split (s : State) (n k : Nat) (h : k < n) :
    ∃ r, s.dataAddrs n = s.dataAddrs k ++ s.dataAddr k :: r := by
  refine ⟨((List.range (n - k - 1)).map (· + (k + 1))).map s.dataAddr, ?_⟩
  have : List.range n = List.range k ++ k :: (List.range (n - k - 1)).map (· + (k + 1)) := by
    apply List.ext_getElem
    · simp; omega
    · intro j h1 h2
      rw [List.getElem_append]
      split
      · simp
      · rename_i h3
        simp only [List.length_range, Nat.not_lt] at h3
        rw [List.getElem_cons]
        split <;> simp <;> simp at * <;> omega
  rw [State.dataAddrs, this]
  simp [State.dataAddrs]

/-! ## Faults and the step's parts -/

/-- All that completing an instruction can answer: its commit, or the fault taken. -/
theorem complete_next {s t : State} {w : Word} {r : Except FaultCause State} (h : s.complete w r = .next t) :
    r = .ok t ∨ ∃ c, r = .error c ∧ t = s.takeFault c (some w) := by
  cases r with
  | ok u => exact .inl (by simpa [State.complete] using h)
  | error c => exact .inr ⟨c, rfl, by simpa [State.complete, eq_comm] using h⟩

/-- An instruction always completes: with its commit or with its fault. -/
theorem complete_answers (s : State) (w : Word) (r : Except FaultCause State) : ∃ t, s.complete w r = .next t := by
  cases r <;> exact ⟨_, rfl⟩

/-- All that a fetch can answer (R70). -/
theorem fetch_cases (s : State) :
    (s.pc.toNat > 0xFFE ∧ s.fetch = .error ⟨.fetchOob, some s.pc.toNat⟩) ∨
    (s.pc.toNat ≤ 0xFFE ∧ s.pc.toNat % 2 = 1 ∧ s.params.oddPc = .fault ∧
      s.fetch = .error ⟨.misalignedFetch, some s.pc.toNat⟩) ∨
    (s.pc.toNat ≤ 0xFFE ∧ (s.pc.toNat % 2 = 0 ∨ s.params.oddPc = .fetch) ∧ s.fetch = .ok (s.wordAt s.pc.toNat)) := by
  unfold State.fetch
  by_cases h1 : s.pc.toNat > 0xFFE
  · exact .inl ⟨h1, by simp [h1]⟩
  · by_cases h2 : s.pc.toNat % 2 = 1 ∧ s.params.oddPc = .fault
    · exact .inr (.inl ⟨by omega, h2.1, h2.2, by rw [if_neg h1, if_pos h2]⟩)
    · refine .inr (.inr ⟨by omega, ?_, by rw [if_neg h1, if_neg h2]⟩)
      by_cases h3 : s.pc.toNat % 2 = 1
      · right
        cases h4 : s.params.oddPc with
        | fetch => rfl
        | fault => exact absurd ⟨h3, h4⟩ h2
      · left; omega

/-- A timer counts down by one and stops at 0 (R215). -/
theorem tickDown_toNat (t : Byte) : (tickDown t).toNat = t.toNat - 1 := by
  unfold tickDown
  split
  · rename_i h; simp [h]
  · rename_i h
    have : t.toNat ≠ 0 := fun e => h (BitVec.eq_of_toNat_eq (by simpa using e))
    have := t.isLt
    rw [BitVec.toNat_sub]
    simp; omega

theorem endStep_of_running (s : State) (h : s.fault = none) : s.endStep = s.tick := by simp [State.endStep, h]

theorem endStep_of_faulted (s : State) (r : FaultRecord) (h : s.fault = some r) : s.endStep = s := by
  simp [State.endStep, h]

/-! ## Sprites -/

theorem mem_rowPixels (x0 ys : Nat) (row : Byte) (q : Nat × Nat) :
    q ∈ rowPixels x0 ys row ↔ ∃ c, c < 8 ∧ row.getLsbD (7 - c) = true ∧ q = (x0 + c, ys) := by
  simp only [rowPixels, List.mem_map, List.mem_filter, List.mem_range, spriteBit]
  constructor
  · rintro ⟨c, ⟨h1, h2⟩, rfl⟩; exact ⟨c, h1, h2, rfl⟩
  · rintro ⟨c, h1, h2, rfl⟩; exact ⟨c, ⟨h1, h2⟩, rfl⟩

/-- The pixels of a sprite are its set bits (R150, R152). -/
theorem mem_spritePixels (x0 : Nat) : ∀ (rows : List Byte) (y0 : Nat) (q : Nat × Nat),
    q ∈ spritePixels x0 y0 rows ↔
      ∃ r c, r < rows.length ∧ c < 8 ∧ (rows.getD r 0).getLsbD (7 - c) = true ∧ q = (x0 + c, y0 + r)
  | [], y0, q => by simp [spritePixels]
  | row :: rows, y0, q => by
    rw [spritePixels, List.mem_append, mem_rowPixels, mem_spritePixels x0 rows (y0 + 1) q]
    constructor
    · rintro (⟨c, h1, h2, rfl⟩ | ⟨r, c, h1, h2, h3, rfl⟩)
      · exact ⟨0, c, by simp, h1, by simpa using h2, by simp⟩
      · exact ⟨r + 1, c, by simp [h1], h2, by simpa using h3, by simp; omega⟩
    · rintro ⟨r, c, h1, h2, h3, rfl⟩
      cases r with
      | zero => exact .inl ⟨c, h2, by simpa using h3, by simp⟩
      | succ r => exact .inr ⟨r, c, by simpa using h1, h2, by simpa using h3, by simp; omega⟩

/-- The hits are the pixels that are kept. -/
theorem placeAll_ok (policy : DrawEdgePolicy) : ∀ (l : List (Nat × Nat)) (hits : List Pixel),
    placeAll policy l = .ok hits →
      (∀ q ∈ l, ∀ index, place policy q.1 q.2 ≠ .off index) ∧
      ∀ p, p ∈ hits ↔ ∃ q ∈ l, place policy q.1 q.2 = .keep p
  | [], hits, h => by
    cases h
    simp
  | q :: l, hits, h => by
    unfold placeAll at h
    cases hq : place policy q.1 q.2 with
    | off index => simp [hq] at h
    | drop =>
      simp only [hq] at h
      obtain ⟨h1, h2⟩ := placeAll_ok policy l hits h
      refine ⟨?_, fun p => ?_⟩
      · intro q' hq' index
        rcases List.mem_cons.1 hq' with rfl | hm
        · simp [hq]
        · exact h1 q' hm index
      · rw [h2 p]
        constructor
        · rintro ⟨q', hm, he⟩; exact ⟨q', by simp [hm], he⟩
        · rintro ⟨q', hm, he⟩
          rcases List.mem_cons.1 hm with rfl | hm
          · simp [hq] at he
          · exact ⟨q', hm, he⟩
    | keep p0 =>
      simp only [hq] at h
      cases hr : placeAll policy l with
      | error c => simp [hr] at h
      | ok rest =>
        simp only [hr, Except.ok.injEq] at h
        obtain ⟨h1, h2⟩ := placeAll_ok policy l rest hr
        subst h
        refine ⟨?_, fun p => ?_⟩
        · intro q' hq' index
          rcases List.mem_cons.1 hq' with rfl | hm
          · simp [hq]
          · exact h1 q' hm index
        · rw [List.mem_cons, h2 p]
          constructor
          · rintro (rfl | ⟨q', hm, he⟩)
            · exact ⟨q, by simp, hq⟩
            · exact ⟨q', by simp [hm], he⟩
          · rintro ⟨q', hm, he⟩
            rcases List.mem_cons.1 hm with rfl | hm
            · rw [hq] at he; cases he; exact .inl rfl
            · exact .inr ⟨q', hm, he⟩

/-- No pixel off the display: the hits exist. -/
theorem placeAll_answers (policy : DrawEdgePolicy) : ∀ l : List (Nat × Nat),
    (∀ q ∈ l, ∀ index, place policy q.1 q.2 ≠ .off index) → ∃ hits, placeAll policy l = .ok hits
  | [], _ => ⟨[], rfl⟩
  | q :: l, h => by
    obtain ⟨hits, hh⟩ := placeAll_answers policy l fun q' hm => h q' (by simp [hm])
    unfold placeAll
    cases hq : place policy q.1 q.2 with
    | off index => exact absurd hq (h q (by simp) index)
    | drop => exact ⟨hits, by simp [hh]⟩
    | keep p => exact ⟨p :: hits, by simp [hh]⟩

/-- The first pixel off the display names the fault (R151, R207). -/
theorem placeAll_error (policy : DrawEdgePolicy) (index : Nat) : ∀ (l : List (Nat × Nat)) (q : Nat × Nat)
    (r : List (Nat × Nat)), (∀ q' ∈ l, ∀ j, place policy q'.1 q'.2 ≠ .off j) → place policy q.1 q.2 = .off index →
    placeAll policy (l ++ q :: r) = .error ⟨.displayOob, some index⟩
  | [], q, r, _, hq => by simp [placeAll, hq]
  | q' :: l, q, r, h, hq => by
    have ih := placeAll_error policy index l q r (fun a hm => h a (by simp [hm])) hq
    rw [List.cons_append, placeAll]
    cases hq' : place policy q'.1 q'.2 with
    | off j => exact absurd hq' (h q' (by simp) j)
    | drop => simpa using ih
    | keep p => simp [ih]

end Sys2Proof.Machine
end

