-- ==== Sys2Proof/Laws/Draw.lean ====
section
/-! SUPPORT. Checks at the data addresses I, I + 1, ..., and where the pixels of a sprite land. -/

namespace Sys2Proof.Machine

/-! ## The data addresses -/

@[simp] theorem length_dataAddrs (s : State) (n) : (s.dataAddrs n).length = n := by simp [State.dataAddrs]

/-- `n` writable data addresses (R55). -/
theorem checkWriteAll_dataAddrs_ok (s : State) (n : Nat) (h1 : s.i.toNat + n ≤ 0x1000)
    (h2 : 0x4F < s.i.toNat ∨ s.params.fontWrite = .allow) :
    s.checkWriteAll (s.dataAddrs n) = .ok () := by
  apply checkWriteAll_ok
  intro a ha
  rw [mem_dataAddrs] at ha
  refine ⟨by omega, ?_⟩
  rintro ⟨h3, h4⟩
  rcases h2 with h2 | h2
  · omega
  · simp [h4] at h2

/-- The first data address above 0xFFF is the greater of I and 0x1000 (R55, R207). -/
theorem checkWriteAll_dataAddrs_oob (s : State) (n : Nat) (h1 : s.i.toNat + n > 0x1000) (hn : 0 < n)
    (h2 : 0x4F < s.i.toNat ∨ s.params.fontWrite = .allow) :
    s.checkWriteAll (s.dataAddrs n) = .error ⟨.memWriteOob, some (max s.i.toNat 0x1000)⟩ := by
  have hk : (0x1000 - s.i.toNat) < n := by omega
  obtain ⟨r, hr⟩ := dataAddrs_split s n _ hk
  rw [hr]
  have : s.dataAddr (0x1000 - s.i.toNat) = max s.i.toNat 0x1000 := by simp [State.dataAddr]; omega
  apply checkWriteAll_error
  · intro b hb
    rw [mem_dataAddrs] at hb
    refine ⟨by omega, ?_⟩
    rintro ⟨h3, h4⟩
    rcases h2 with h2 | h2
    · omega
    · simp [h4] at h2
  · rw [this]; simp [State.checkWrite]

/-- A store that begins in the read-only font table faults at its first address (R55, R207). -/
theorem checkWriteAll_dataAddrs_font (s : State) (n : Nat) (hn : 0 < n) (h1 : s.i.toNat ≤ 0x4F)
    (h2 : s.params.fontWrite = .fault) :
    s.checkWriteAll (s.dataAddrs n) = .error ⟨.fontWrite, some s.i.toNat⟩ := by
  obtain ⟨r, hr⟩ := dataAddrs_split s n _ hn
  rw [hr]
  apply checkWriteAll_error
  · intro b hb
    rw [mem_dataAddrs] at hb; omega
  · simp [State.checkWrite, State.dataAddr, h1, h2]; try omega

/-- `n` readable data addresses (R54). -/
theorem memReadAll_dataAddrs_ok (s : State) (n : Nat) (h1 : s.i.toNat + n ≤ 0x1000) :
    s.memReadAll (s.dataAddrs n) = .ok ((s.dataAddrs n).map s.byteAt) := by
  apply memReadAll_ok
  intro a ha
  rw [mem_dataAddrs] at ha
  omega

/-- The first data address above 0xFFF is the greater of I and 0x1000 (R54, R207). -/
theorem memReadAll_dataAddrs_oob (s : State) (n : Nat) (h1 : s.i.toNat + n > 0x1000) (hn : 0 < n) :
    s.memReadAll (s.dataAddrs n) = .error ⟨.memReadOob, some (max s.i.toNat 0x1000)⟩ := by
  have hk : (0x1000 - s.i.toNat) < n := by omega
  obtain ⟨r, hr⟩ := dataAddrs_split s n _ hk
  rw [hr]
  have : s.dataAddr (0x1000 - s.i.toNat) = max s.i.toNat 0x1000 := by simp [State.dataAddr]; omega
  rw [this]
  apply memReadAll_error
  · intro b hb
    rw [mem_dataAddrs] at hb
    omega
  · omega

/-- All that reading the data addresses can answer: the bytes, or the fault of the first address above 0xFFF. -/
theorem memReadAll_dataAddrs_cases (s : State) (n : Nat) :
    s.memReadAll (s.dataAddrs n) = .ok ((s.dataAddrs n).map s.byteAt) ∨
    ∃ k, k < n ∧ s.dataAddr k > 0xFFF ∧ (∀ j, j < k → s.dataAddr j ≤ 0xFFF) ∧
      s.memReadAll (s.dataAddrs n) = .error ⟨.memReadOob, some (s.dataAddr k)⟩ := by
  by_cases h0 : n = 0
  · exact .inl (by subst h0; rfl)
  by_cases h : s.i.toNat + n ≤ 0x1000
  · exact .inl (memReadAll_dataAddrs_ok s n h)
  · have hk : s.dataAddr (0x1000 - s.i.toNat) = max s.i.toNat 0x1000 := by unfold State.dataAddr; omega
    refine .inr ⟨0x1000 - s.i.toNat, by omega, by omega, fun j hj => ?_, ?_⟩
    · unfold State.dataAddr; omega
    · rw [hk]; exact memReadAll_dataAddrs_oob s n (by omega) (by omega)

/-- All that checking writes at the data addresses can answer: every one is writable, or the fault of the first above
0xFFF, or the fault of the first, in the read-only font table. -/
theorem checkWriteAll_dataAddrs_cases (s : State) (n : Nat) :
    ((∀ a ∈ s.dataAddrs n, s.writable a) ∧ s.checkWriteAll (s.dataAddrs n) = .ok ()) ∨
    (∃ k, k < n ∧ s.dataAddr k > 0xFFF ∧ (∀ j, j < k → s.dataAddr j ≤ 0xFFF) ∧
      s.checkWriteAll (s.dataAddrs n) = .error ⟨.memWriteOob, some (s.dataAddr k)⟩) ∨
    (s.params.fontWrite = .fault ∧ s.dataAddr 0 ≤ 0x04F ∧
      s.checkWriteAll (s.dataAddrs n) = .error ⟨.fontWrite, some (s.dataAddr 0)⟩) := by
  by_cases h0 : n = 0
  · subst h0; exact .inl ⟨fun a ha => by simp [State.dataAddrs] at ha, rfl⟩
  by_cases hf : s.i.toNat ≤ 0x4F ∧ s.params.fontWrite = .fault
  · exact .inr (.inr ⟨hf.2, hf.1, checkWriteAll_dataAddrs_font s n (by omega) hf.1 hf.2⟩)
  have hw : 0x4F < s.i.toNat ∨ s.params.fontWrite = .allow := by
    cases hp : s.params.fontWrite with
    | allow => exact .inr rfl
    | fault => exact .inl (by have : ¬ s.i.toNat ≤ 0x4F := fun h => hf ⟨h, hp⟩; omega)
  by_cases h : s.i.toNat + n ≤ 0x1000
  · refine .inl ⟨fun a ha => ?_, checkWriteAll_dataAddrs_ok s n h hw⟩
    rw [mem_dataAddrs] at ha
    refine ⟨by omega, fun hc => ?_⟩
    rcases hw with hw | hw
    · omega
    · rw [hc.2] at hw; cases hw
  · have hk : s.dataAddr (0x1000 - s.i.toNat) = max s.i.toNat 0x1000 := by unfold State.dataAddr; omega
    refine .inr (.inl ⟨0x1000 - s.i.toNat, by omega, by omega, fun j hj => ?_, ?_⟩)
    · unfold State.dataAddr; omega
    · rw [hk]; exact checkWriteAll_dataAddrs_oob s n (by omega) (by omega) hw

/-! ## Sprites -/

/-- A kept pixel is drawn where it lands (R151). -/
theorem place_keep_iff (pol : DrawEdgePolicy) (xs ys : Nat) (p : Pixel) : place pol xs ys = .keep p ↔ Lands pol xs ys p := by
  have hpx := p.x.isLt
  have hpy := p.y.isLt
  have e : pixelOf xs ys = p ↔ p.x.val = xs % 64 ∧ p.y.val = ys % 32 := by
    constructor
    · rintro rfl; simp [pixelOf, Fin.ofNat]
    · rintro ⟨h1, h2⟩
      cases p with
      | mk x y => simp [pixelOf, Fin.ofNat]; constructor <;> (apply Fin.ext; simp_all)
  cases pol <;> simp only [place, Lands]
  · simp [e]
  · split
    · simp; omega
    · simp [e]; omega
  · split
    · simp; omega
    · simp [e]; omega

/-- A faulting pixel lies off the display, and its index is that of its exact coordinates (R151, R205). -/
theorem place_off {pol : DrawEdgePolicy} {xs ys index : Nat} (h : place pol xs ys = .off index) :
    pol = .fault ∧ (xs > 63 ∨ ys > 31) ∧ index = ys * 64 + xs := by
  cases pol <;> simp only [place] at h
  · cases h
  · split at h <;> cases h
  · split at h
    · rename_i ho; cases h; exact ⟨rfl, ho, rfl⟩
    · cases h

/-- Which pixels fault (R151). -/
theorem place_off_iff (pol : DrawEdgePolicy) (xs ys : Nat) : (∃ j, place pol xs ys = .off j) ↔ pol = .fault ∧ (xs > 63 ∨ ys > 31) := by
  constructor
  · rintro ⟨_, h⟩; exact ⟨(place_off h).1, (place_off h).2.1⟩
  · rintro ⟨rfl, h⟩; exact ⟨_, if_pos h⟩

/-- A placement that fails fails at one of its pixels. -/
theorem placeAll_error_cases (pol : DrawEdgePolicy) (c : FaultCause) : ∀ l : List (Nat × Nat),
    placeAll pol l = .error c → ∃ q ∈ l, ∃ index, place pol q.1 q.2 = .off index ∧ c = ⟨.displayOob, some index⟩
  | [], h => by cases h
  | q :: l, h => by
    have tail (h : placeAll pol l = .error c) : ∃ q' ∈ q :: l, ∃ index,
        place pol q'.1 q'.2 = .off index ∧ c = ⟨.displayOob, some index⟩ := by
      obtain ⟨q', hm, index, ho, hc⟩ := placeAll_error_cases pol c l h
      exact ⟨q', List.mem_cons_of_mem _ hm, index, ho, hc⟩
    unfold placeAll at h
    split at h
    · rename_i index ho; cases h; exact ⟨q, List.mem_cons_self, index, ho, rfl⟩
    · exact tail h
    · split at h
      · rename_i hr; cases h; exact tail hr
      · cases h

/-- Readability as a bound on I. -/
theorem spriteReadable_iff (s : State) (n : Count) :
    s.SpriteReadable n ↔ (s.i.toNat + n.toNat ≤ 0x1000 ∨ n.toNat = 0) := by
  unfold State.SpriteReadable State.dataAddr memSize
  have : n = 0 ↔ n.toNat = 0 := ⟨fun h => by simp [h], fun h => BitVec.eq_of_toNat_eq (by simpa using h)⟩
  rw [this]

/-- The rows of a readable sprite. -/
theorem memReadAll_of_readable (s : State) (n : Count) (h : s.SpriteReadable n) :
    s.memReadAll (s.dataAddrs n.toNat) = .ok ((s.dataAddrs n.toNat).map s.byteAt) := by
  rw [spriteReadable_iff] at h
  rcases h with h | h
  · exact memReadAll_dataAddrs_ok s _ h
  · simp [h, State.dataAddrs, State.memReadAll]

/-- Row `r` of the bytes read. -/
theorem spriteRow_getD (s : State) (n : Count) (r : Nat) (h : r < n.toNat) :
    ((s.dataAddrs n.toNat).map s.byteAt).getD r 0 = s.byteAt (s.dataAddr r) := by
  simp [State.dataAddrs, h]

/-- The pixels of a sprite, in the terms of `State.spriteSet`. -/
theorem mem_spritePixels_iff (s : State) (x y : Reg) (n : Nat) (q : Nat × Nat) :
    q ∈ spritePixels (s.reg x).toNat (s.reg y).toNat ((s.dataAddrs n).map s.byteAt) ↔
      ∃ r c, r < n ∧ c < 8 ∧ s.spriteSet r c ∧ q = (s.spriteX x c, s.spriteY y r) := by
  rw [mem_spritePixels]
  simp only [List.length_map, length_dataAddrs]
  constructor <;> rintro ⟨r, c, h1, h2, h3, h4⟩ <;> refine ⟨r, c, h1, h2, ?_, h4⟩
  · simpa [State.dataAddrs, h1, State.spriteSet] using h3
  · simpa [State.dataAddrs, h1, State.spriteSet] using h3

/-- A readable, placeable sprite has hits, and they are the cells `State.Hits` names (R150). -/
theorem spriteHits_ok (s : State) (x y : Reg) (n : Count) (h1 : s.SpriteReadable n)
    (h2 : s.SpritePlaceable x y n) :
    ∃ hits, s.spriteHits x y n = .ok hits ∧ ∀ p, p ∈ hits ↔ s.Hits x y n p := by
  have hno : ∀ q ∈ spritePixels (s.reg x).toNat (s.reg y).toNat ((s.dataAddrs n.toNat).map s.byteAt), ∀ j,
      place s.params.drawEdge q.1 q.2 ≠ .off j := by
    intro q hq j hj
    rw [mem_spritePixels_iff] at hq
    obtain ⟨r, c, g1, g2, g3, rfl⟩ := hq
    obtain ⟨g4, g5⟩ := (place_off_iff _ _ _).1 ⟨j, hj⟩
    have := h2 g4 r c g1 g2 g3
    simp at g5
    omega
  obtain ⟨hits, hh⟩ := placeAll_answers s.params.drawEdge _ hno
  refine ⟨hits, by simp [State.spriteHits, memReadAll_of_readable s n h1, hh], fun p => ?_⟩
  rw [(placeAll_ok _ _ _ hh).2 p]
  constructor
  · rintro ⟨q, hq, hk⟩
    rw [mem_spritePixels_iff] at hq
    obtain ⟨r, c, g1, g2, g3, rfl⟩ := hq
    exact ⟨r, c, g1, g2, g3, (place_keep_iff _ _ _ _).1 hk⟩
  · rintro ⟨r, c, g1, g2, g3, g4⟩
    exact ⟨(s.spriteX x c, s.spriteY y r),
      (mem_spritePixels_iff _ _ _ _ _).2 ⟨r, c, g1, g2, g3, rfl⟩, (place_keep_iff _ _ _ _).2 g4⟩

/-- A set bit splits its row: the pixels before it lie further left. -/
theorem rowPixels_split (x0 ys : Nat) (row : Byte) (c : Nat) (hc : c < 8) (hb : row.getLsbD (7 - c) = true) :
    ∃ l r, rowPixels x0 ys row = l ++ (x0 + c, ys) :: r ∧
      ∀ q ∈ l, ∃ c', c' < c ∧ row.getLsbD (7-c') = true ∧ q = (x0 + c', ys) := by
  have : List.range 8 = List.range c ++ c :: (List.range (8 - c - 1)).map (· + (c + 1)) := by
    have : ∀ c : Fin 8, List.range 8 = List.range c ++ c.val :: (List.range (8 - c - 1)).map (· + (c.val + 1)) := by
      decide
    exact this ⟨c, hc⟩
  refine ⟨((List.range c).filter (spriteBit row)).map fun c => (x0 + c, ys),
    (((List.range (8 - c - 1)).map (· + (c + 1))).filter (spriteBit row)).map fun c => (x0 + c, ys), ?_, ?_⟩
  · unfold rowPixels; rw [this]
    simp only [List.filter_append, spriteBit, List.filter_cons, hb, if_true, List.map_append, List.map_cons]
  · intro q hq
    simp [spriteBit] at hq
    obtain ⟨a, ⟨h1, h2⟩, rfl⟩ := hq
    exact ⟨a, h1, h2, rfl⟩

/-- A set bit splits its sprite: the pixels before it come from an earlier row or lie further left (R150). -/
theorem spritePixels_split (x0 : Nat) : ∀ (rows : List Byte) (y0 r c : Nat), r < rows.length → c < 8 →
    (rows.getD r 0).getLsbD (7-c) = true → ∃ l t, spritePixels x0 y0 rows = l ++ (x0 + c, y0 + r) :: t ∧
      ∀ q ∈ l, ∃ r' c', r' < rows.length ∧ c' < 8 ∧ (rows.getD r' 0).getLsbD (7-c') = true ∧
        (r' < r ∨ r' = r ∧ c' < c) ∧ q = (x0 + c', y0 + r')
  | [], y0, r, c, h, _, _ => by simp at h
  | row :: rows, y0, 0, c, h, hc, hb => by
    obtain ⟨l, t, h1, h2⟩ := rowPixels_split x0 y0 row c hc (by simpa using hb)
    refine ⟨l, t ++ spritePixels x0 (y0+1) rows, by simp [spritePixels, h1], ?_⟩
    intro q hq
    obtain ⟨c', g1, g2, g3⟩ := h2 q hq
    exact ⟨0, c', by simp, by omega, by simpa using g2, by simp [g1], by simpa using g3⟩
  | row :: rows, y0, r+1, c, h, hc, hb => by
    obtain ⟨l, t, h1, h2⟩ :=
      spritePixels_split x0 rows (y0+1) r c (by simpa using h) hc (by simpa using hb)
    refine ⟨rowPixels x0 y0 row ++ l, t, by simp [spritePixels, h1]; omega, ?_⟩
    intro q hq
    rcases List.mem_append.1 hq with hq | hq
    · obtain ⟨c', g1, g2, g3⟩ := (mem_rowPixels _ _ _ _).1 hq
      exact ⟨0, c', by simp, by omega, by simpa using g2, by simp, by simpa using g3⟩
    · obtain ⟨r', c', g1, g2, g3, g4, g5⟩ := h2 q hq
      exact ⟨r'+1, c', by simpa using g1, g2, by simpa using g3, by omega, by rw [g5]; simp; omega⟩

end Sys2Proof.Machine
end

