-- ==== Sys2Proof/Laws/Step.lean ====
section
/-! SUPPORT. What `exec` and `step` can answer, said once. -/

namespace Sys2Proof.Machine

/-- No instruction stops or is refused. -/
theorem exec_answers (i : Instr) (s : State) : ∃ t, exec i s = .next t := by
  cases i
  case ldVxK x => simp only [exec, execLdVxK]; split <;> exact ⟨_, rfl⟩
  all_goals first | exact ⟨_, rfl⟩ | exact complete_answers _ _ _

/-- All that an instruction can do to the fields no instruction computes: its commit, or its fault taken. -/
theorem exec_next_cases {i : Instr} {s t : State} (h : exec i s = .next t) :
    (t.fault = s.fault ∧ t.buzzer = s.buzzer ∧ t.keys = s.keys ∧ t.params = s.params ∧
      (i ≠ .cls → t.clearReq = s.clearReq) ∧ (i = .cls → t.clearReq = true)) ∨
    ∃ c, t = s.takeFault c (some (encode i)) := by
  cases i
  case ldVxK x =>
    simp only [exec, execLdVxK] at h
    left; split at h <;> cases h <;> simp
  case ret => 
    rcases complete_next h with h | ⟨c, _, h⟩
    · left; split at h <;> cases h; simp
    · exact .inr ⟨c, h⟩
  case call => 
    rcases complete_next h with h | ⟨c, _, h⟩
    · left; split at h <;> cases h; simp
    · exact .inr ⟨c, h⟩
  case sys => 
    simp only [exec, execSys] at h
    rcases complete_next h with h | ⟨c, _, h⟩
    · cases h
    · exact .inr ⟨c, h⟩
  case drw =>
    rcases complete_next h with h | ⟨c, _, h⟩
    · left; split at h <;> cases h; simp [setFlag_eq]
    · exact .inr ⟨c, h⟩
  case skp =>
    rcases complete_next h with h | ⟨c, _, h⟩
    · left; split at h <;> cases h; simp
    · exact .inr ⟨c, h⟩
  case sknp =>
    rcases complete_next h with h | ⟨c, _, h⟩
    · left; split at h <;> cases h; simp
    · exact .inr ⟨c, h⟩
  case ldB =>
    rcases complete_next h with h | ⟨c, _, h⟩
    · left; split at h <;> cases h; simp
    · exact .inr ⟨c, h⟩
  case ldMemVx =>
    rcases complete_next h with h | ⟨c, _, h⟩
    · left; split at h <;> cases h; simp
    · exact .inr ⟨c, h⟩
  case ldVxMem =>
    rcases complete_next h with h | ⟨c, _, h⟩
    · left; split at h <;> cases h; simp
    · exact .inr ⟨c, h⟩
  all_goals (left; cases h; (try rw [commitFlagged_eq]); simp [setFlag_eq])

/-- All that a step can do. -/
theorem step_next_cases {s t : State} (h : step s = .next t) :
    s.fault = none ∧
    ((∃ c, s.fetch = .error c ∧ t = s.clearOutputs.takeFault c none) ∨
     (∃ w, s.fetch = .ok w ∧ (∀ i, decode w ≠ .ok i) ∧
       t = s.clearOutputs.takeFault ⟨.unknownInstruction, none⟩ (some w)) ∨
     (∃ w i u, s.Executes w i ∧ exec i s.clearOutputs = .next u ∧ t = u.endStep)) := by
  unfold step at h
  split at h
  · cases h
  · rename_i hf
    refine ⟨hf, ?_⟩
    unfold State.runStep at h
    have hfe : s.clearOutputs.fetch = s.fetch := rfl
    rw [hfe] at h
    split at h
    · rename_i w hw
      unfold State.runWord at h
      split at h
      · rename_i i hi
        unfold State.runInstr at h
        obtain ⟨u, hu⟩ := exec_answers i s.clearOutputs
        rw [hu] at h
        cases h
        exact .inr (.inr ⟨w, i, u, ⟨hf, hw, hi⟩, hu, rfl⟩)
      · rename_i e he
        cases h
        exact .inr (.inl ⟨w, hw, fun i hi => (by rw [he] at hi; cases hi), rfl⟩)
    · rename_i c hc
      cases h
      exact .inl ⟨c, hc, rfl⟩

/-- A step that executes `i` is `exec i` and the end of the step. -/
theorem step_of_executes {s t : State} {w : Word} {i : Instr} (he : s.Executes w i)
    (hx : exec i s.clearOutputs = .next t) : step s = .next t.endStep := by
  obtain ⟨h1, h2, h3⟩ := he
  have : s.clearOutputs.fetch = .ok w := h2
  simp [step, h1, State.runStep, this, State.runWord, h3, State.runInstr, hx]

/-- Two states with the same FAULT, PC, memory and parameters execute the same instruction. -/
theorem executes_congr {s t : State} {w : Word} {i : Instr} (h1 : t.fault = s.fault) (h2 : t.pc = s.pc)
    (h3 : t.mem = s.mem) (h4 : t.params = s.params) (h : s.Executes w i) : t.Executes w i := by
  refine ⟨h1.trans h.1, ?_, h.2.2⟩
  rw [← h.2.1]
  simp only [State.fetch, h2, h4, State.wordAt, State.byteAt, h3]

/-- Two writes to registers: the later one wins, and writes to different registers commute. -/
theorem setReg_setReg (s : State) (r x : Reg) (b c : Byte) :
    (s.setReg r b).setReg x c = if x = r then s.setReg x c else (s.setReg x c).setReg r b := by
  split
  · rename_i h; subst h; simp [State.setReg]
  · rename_i h
    have : r.toNat ≠ x.toNat := fun e => h (Reg.eq_of_toNat e.symm)
    simp [State.setReg, Vector.set_comm _ _ this]

end Sys2Proof.Machine
end

