-- ==== Sys2Proof/Tests/Slice0.lean ====
section
/-! SUPPORT. The model's own tests. The words are written out from the encodings of 30_encoding.md rule R74, the results
taken from 95_test_vectors.md (the vector is named at each test), and every statement with hypotheses has a witness. -/

namespace Sys2Proof.Tests

open Sys2Proof Sys2Proof.Machine

/-! ## Helpers -/

/-- The state after one step, none where the step has no next state. -/
def after (s : State) : Option State :=
  match step s with
  | .next t => some t
  | .fault _ => none
  | .refused _ => none

/-- The state after one step that runs the word `w`. -/
def afterWord (w : Nat) (s : State) : Option State := after (s.withFetchWord 16 w)

/-- The reset state with some registers set. -/
def st (rs : List (Reg × Byte)) : State := rs.foldl (fun s p => s.setReg p.1 p.2) State.reset

/-- The reset state with some registers and I set. -/
def stI (i : Word) (rs : List (Reg × Byte)) : State := (st rs).setI i

/-- The reset state under other parameters. -/
def stP (p : Params) (i : Word) (rs : List (Reg × Byte)) : State := { stI i rs with params := p }

/-- The reset state with the keys of the list pressed. -/
def stK (ks : List Nat) (rs : List (Reg × Byte)) : State :=
  { st rs with keys := ks.foldl (fun v k => v.setIfInBounds k true) (Vector.replicate 16 false) }

/-- A cell, by column and row. -/
def px (x : Fin 64) (y : Fin 32) : Pixel := ⟨x, y⟩

/-- PC, SP and FAULT. -/
def control (t : State) : Word × Nat × Option FaultRecord := (t.pc, t.sp.val, t.fault)

theorem after_some {s t : State} (h : after s = some t) : step s = .next t := by
  unfold after at h
  split at h
  · cases h; assumption
  · cases h
  · cases h

/-! ## WellFormed: the one check refuses its ill-formed terms (R74, R76) -/

theorem test_wf_sys_cls : Instr.wf (.sys 0x0E0#12) = false := by decide
theorem test_wf_sys_ret : Instr.wf (.sys 0x0EE#12) = false := by decide
theorem test_wf_sys : Instr.wf (.sys 0x0E1#12) = true ∧ Instr.wf (.sys 0x000#12) = true := by decide

/-! ## Decode: every constructor, its word written out from R74's pattern -/

theorem test_decode_control :
    decode 0b0000000011100000#16 = .ok .cls ∧
    decode 0b0000000011101110#16 = .ok .ret ∧
    decode 0b0000101010111100#16 = .ok (.sys 0xABC#12) ∧
    decode 0b0001001000001010#16 = .ok (.jp 0x20A#12) ∧
    decode 0b0010001100000000#16 = .ok (.call 0x300#12) ∧
    decode 0b0011010100010010#16 = .ok (.seImm 0x5#4 0x12#8) ∧
    decode 0b0100010100010010#16 = .ok (.sneImm 0x5#4 0x12#8) ∧
    decode 0b0101010101100000#16 = .ok (.seReg 0x5#4 0x6#4) ∧
    decode 0b1001010101100000#16 = .ok (.sneReg 0x5#4 0x6#4) ∧
    decode 0b1011001000000001#16 = .ok (.jpV0 0x201#12) := by decide

theorem test_decode_arithmetic :
    decode 0b0110111110101011#16 = .ok (.ldImm 0xF#4 0xAB#8) ∧
    decode 0b0111000000000101#16 = .ok (.addImm 0x0#4 0x05#8) ∧
    decode 0b1000000100100000#16 = .ok (.ldReg 0x1#4 0x2#4) ∧
    decode 0b1000000100100001#16 = .ok (.orReg 0x1#4 0x2#4) ∧
    decode 0b1000000100100010#16 = .ok (.andReg 0x1#4 0x2#4) ∧
    decode 0b1000000100100011#16 = .ok (.xorReg 0x1#4 0x2#4) ∧
    decode 0b1000000100100100#16 = .ok (.addReg 0x1#4 0x2#4) ∧
    decode 0b1000000100100101#16 = .ok (.sub 0x1#4 0x2#4) ∧
    decode 0b1000000100100110#16 = .ok (.shr 0x1#4 0x2#4) ∧
    decode 0b1000000100100111#16 = .ok (.subn 0x1#4 0x2#4) ∧
    decode 0b1000000100101110#16 = .ok (.shl 0x1#4 0x2#4) ∧
    decode 0b1100000000001111#16 = .ok (.rnd 0x0#4 0x0F#8) := by decide

theorem test_decode_memory :
    decode 0b1010111111111111#16 = .ok (.ldI 0xFFF#12) ∧
    decode 0b1111001100011110#16 = .ok (.addI 0x3#4) ∧
    decode 0b1111001000101001#16 = .ok (.ldF 0x2#4) ∧
    decode 0b1111101000110011#16 = .ok (.ldB 0xA#4) ∧
    decode 0b1111000101010101#16 = .ok (.ldMemVx 0x1#4) ∧
    decode 0b1111001001100101#16 = .ok (.ldVxMem 0x2#4) := by decide

theorem test_decode_display_input_timers :
    decode 0b1101000000010101#16 = .ok (.drw 0x0#4 0x1#4 0x5#4) ∧
    decode 0b1110010010011110#16 = .ok (.skp 0x4#4) ∧
    decode 0b1110010010100001#16 = .ok (.sknp 0x4#4) ∧
    decode 0b1111001100001010#16 = .ok (.ldVxK 0x3#4) ∧
    decode 0b1111000100000111#16 = .ok (.ldVxDt 0x1#4) ∧
    decode 0b1111000100010101#16 = .ok (.ldDtVx 0x1#4) ∧
    decode 0b1111000100011000#16 = .ok (.ldStVx 0x1#4) := by decide

/-- R75's families, and SUPER-CHIP words (vectors D-3 to D-8). -/
theorem test_decode_unknown :
    decode 0x5121#16 = .error (.unknown 0x5121#16) ∧ decode 0x8018#16 = .error (.unknown 0x8018#16) ∧
    decode 0x901F#16 = .error (.unknown 0x901F#16) ∧ decode 0xE09F#16 = .error (.unknown 0xE09F#16) ∧
    decode 0xF000#16 = .error (.unknown 0xF000#16) ∧ decode 0xF075#16 = .error (.unknown 0xF075#16) := by decide

/-- The byte at the lower address is the high byte (R56), and one byte is no word (R79). -/
theorem test_decodeBytes :
    decodeBytes [0xA2#8, 0x00#8, 0x12#8] = .ok (.ldI 0x200#12, [0x12#8]) ∧
    decodeBytes [0xA2#8] = .error .truncated ∧ decodeTableWord 16 0xF155 = some (.ldMemVx 0x1#4) ∧
    decodeTableWord 16 0xF000 = none := by decide

/-! ## Fetch, faults, tick -/

/-- Vectors D-1, D-3. -/
theorem test_fault_entry :
    (afterWord 0x0123 State.reset).map control =
      some (0x200#16, 0, some ⟨.unsupportedSys, 0x200#16, some 0x0123#16, none⟩) ∧
    (afterWord 0x5121 State.reset).map control =
      some (0x200#16, 0, some ⟨.unknownInstruction, 0x200#16, some 0x5121#16, none⟩) := by decide

/-- Vectors D-10, D-11, D-12, D-13. -/
theorem test_fetch :
    (after (State.reset.setPc 0x201#16)).map control =
      some (0x201#16, 0, some ⟨.misalignedFetch, 0x201#16, none, some 0x201⟩) ∧
    (after (State.reset.setPc 0xFFF#16)).map control =
      some (0xFFF#16, 0, some ⟨.fetchOob, 0xFFF#16, none, some 0xFFF⟩) ∧
    (afterWord 0x1234 (State.reset.setPc 0xFFE#16)).map control = some (0x234#16, 0, none) ∧
    (after (State.reset.setPc 0x1002#16)).map control =
      some (0x1002#16, 0, some ⟨.fetchOob, 0x1002#16, none, some 0x1002⟩) := by decide

/-- Vectors T-8, T-9: the tick and the buzzer, and no tick in a step that faults. -/
theorem test_tick :
    (afterWord 0x6000 (State.reset.setSt 1#8)).map (fun t => (t.st, t.buzzer)) = some (0#8, true) ∧
    (afterWord 0x5121 ((State.reset.setSt 5#8).setDt 5#8)).map (fun t => (t.st, t.dt, t.buzzer)) =
      some (5#8, 5#8, false) := by decide

/-- Vector D-14: a faulted core reports its record. -/
theorem test_stopped :
    step { State.reset with fault := some ⟨.fetchOob, 0xFFF#16, none, some 0xFFF⟩ } =
      .fault (.stopped ⟨.fetchOob, 0xFFF#16, none, some 0xFFF⟩) := rfl

/-! ## Control flow -/

/-- Vector C-1. -/
theorem test_cls :
    (afterWord 0x00E0 { State.reset with display := Display.setCell displayClear (px 5 5) 1#8 }).map
      (fun t => (Display.cell t.display (px 5 5), t.clearReq, t.buzzer, t.pc)) =
      some (0#8, true, false, 0x202#16) := by decide

/-- Vector C-2. -/
theorem test_ret_empty :
    (afterWord 0x00EE State.reset).map control =
      some (0x200#16, 0, some ⟨.stackUnderflow, 0x200#16, some 0x00EE#16, none⟩) := by decide

/-- Vector C-3. -/
theorem test_ret :
    (afterWord 0x00EE ((State.reset.push 0x204#16).setPc 0x212#16)).map (fun t => (control t, t.stackAt 0)) =
      some ((0x206#16, 0, none), 0x204#16) := by decide

/-- Vector C-22. -/
theorem test_sys :
    (afterWord 0x0ABC State.reset).map control =
      some (0x200#16, 0, some ⟨.unsupportedSys, 0x200#16, some 0x0ABC#16, none⟩) := by decide

/-- Vectors C-6, C-7. -/
theorem test_jp :
    (afterWord 0x1FFF State.reset).map control = some (0xFFF#16, 0, none) ∧
    (afterWord 0x1201 State.reset).map control = some (0x201#16, 0, none) := by decide

/-- Vector C-8. -/
theorem test_call :
    (afterWord 0x2300 (State.reset.setPc 0x204#16)).map (fun t => (control t, t.stackAt 0)) =
      some ((0x300#16, 1, none), 0x204#16) := by decide

/-- Vector C-9. -/
theorem test_call_full :
    (afterWord 0x2300 { State.reset with sp := 16 }).map control =
      some (0x200#16, 16, some ⟨.stackOverflow, 0x200#16, some 0x2300#16, none⟩) := by decide

/-- Vectors C-10, C-11. -/
theorem test_seImm :
    (afterWord 0x3012 (st [(0x0, 0x12)])).map (·.pc) = some 0x204#16 ∧
    (afterWord 0x3012 (st [(0x0, 0x13)])).map (·.pc) = some 0x202#16 := by decide

/-- Vectors C-12, C-13. -/
theorem test_sneImm :
    (afterWord 0x4012 (st [(0x0, 0x12)])).map (·.pc) = some 0x202#16 ∧
    (afterWord 0x4012 (st [(0x0, 0x13)])).map (·.pc) = some 0x204#16 := by decide

/-- Vectors C-14, C-15. -/
theorem test_seReg :
    (afterWord 0x5010 (st [(0x0, 1), (0x1, 1)])).map (·.pc) = some 0x204#16 ∧
    (afterWord 0x5010 (st [(0x0, 1), (0x1, 2)])).map (·.pc) = some 0x202#16 := by decide

/-- Vectors C-16, C-17. -/
theorem test_sneReg :
    (afterWord 0x9010 (st [(0x0, 1), (0x1, 2)])).map (·.pc) = some 0x204#16 ∧
    (afterWord 0x9010 (st [(0x0, 1), (0x1, 1)])).map (·.pc) = some 0x202#16 := by decide

/-- Vectors C-18, C-19. -/
theorem test_jpV0 :
    (afterWord 0xB0FF (st [(0x0, 0xFF)])).map (·.pc) = some 0x1FE#16 ∧
    (afterWord 0xBFFF (st [(0x0, 0xFF)])).map (·.pc) = some 0x10FE#16 := by decide

/-! ## Arithmetic and logic -/

/-- Vector A-1. -/
theorem test_ldImm : (afterWord 0x6FAB State.reset).map (fun t => (t.reg regF, t.pc)) = some (0xAB#8, 0x202#16) := by
  decide

/-- Vector A-2. -/
theorem test_ldReg :
    (afterWord 0x8010 (st [(0x1, 0x5A)])).map (fun t => (t.reg 0x0, t.reg 0x1)) = some (0x5A#8, 0x5A#8) := by decide

/-- Vectors A-3, A-4. -/
theorem test_addImm :
    (afterWord 0x7001 (st [(0x0, 0xFF)])).map (fun t => (t.reg 0x0, t.reg regF)) = some (0#8, 0#8) ∧
    (afterWord 0x7FFF (st [(0xF, 1)])).map (·.reg regF) = some 0#8 := by decide

/-- Vectors A-5, A-6, A-7. -/
theorem test_logic :
    (afterWord 0x8011 (st [(0x0, 0xF0), (0x1, 0x0F), (0xF, 7)])).map (fun t => (t.reg 0x0, t.reg regF)) =
      some (0xFF#8, 7#8) ∧
    (afterWord 0x8012 (st [(0x0, 0xF0), (0x1, 0x3C), (0xF, 7)])).map (fun t => (t.reg 0x0, t.reg regF)) =
      some (0x30#8, 7#8) ∧
    (afterWord 0x8013 (st [(0x0, 0xF0), (0x1, 0x3C), (0xF, 7)])).map (fun t => (t.reg 0x0, t.reg regF)) =
      some (0xCC#8, 7#8) := by decide

/-- Vectors A-8, A-9. -/
theorem test_addReg :
    (afterWord 0x8014 (st [(0x0, 0xFF), (0x1, 2)])).map (fun t => (t.reg 0x0, t.reg regF)) = some (1#8, 1#8) ∧
    (afterWord 0x8014 (st [(0x0, 0x7F), (0x1, 0x80)])).map (fun t => (t.reg 0x0, t.reg regF)) =
      some (0xFF#8, 0#8) := by decide

/-- Vector A-11, and its end under the other FLAG_ORDER. -/
theorem test_addReg_vf :
    (afterWord 0x8FF4 (st [(0xF, 0x80)])).map (·.reg regF) = some 1#8 ∧
    (afterWord 0x8FF4 (stP { hardwareParams with flagOrder := .flagThenResult } 0 [(0xF, 0x80)])).map (·.reg regF) =
      some 0#8 := by decide

/-- Vectors A-14, A-15. -/
theorem test_sub :
    (afterWord 0x8105 (st [(0x0, 1), (0x1, 2)])).map (fun t => (t.reg 0x0, t.reg 0x1, t.reg regF)) =
      some (0xFF#8, 2#8, 0#8) ∧
    (afterWord 0x8105 (st [(0x0, 5), (0x1, 2)])).map (fun t => (t.reg 0x0, t.reg 0x1, t.reg regF)) =
      some (3#8, 2#8, 1#8) := by decide

/-- Vectors A-17, A-18. -/
theorem test_sub_vf :
    (afterWord 0x8F05 (st [(0x0, 3), (0xF, 5)])).map (fun t => (t.reg 0x0, t.reg regF)) = some (0xFE#8, 0#8) ∧
    (afterWord 0x80F5 (st [(0x0, 3), (0xF, 5)])).map (fun t => (t.reg 0x0, t.reg regF)) = some (3#8, 1#8) := by decide

/-- Vectors A-19, A-20. -/
theorem test_subn :
    (afterWord 0x8017 (st [(0x0, 0xFF), (0x1, 2)])).map (fun t => (t.reg 0x0, t.reg regF)) = some (3#8, 0#8) ∧
    (afterWord 0x8017 (st [(0x0, 2), (0x1, 5)])).map (fun t => (t.reg 0x0, t.reg regF)) = some (3#8, 1#8) := by decide

/-- Vectors A-23, A-24. -/
theorem test_shr :
    (afterWord 0x8016 (st [(0x0, 1), (0x1, 0xAA)])).map (fun t => (t.reg 0x0, t.reg 0x1, t.reg regF)) =
      some (0#8, 0xAA#8, 1#8) ∧
    (afterWord 0x8F06 (st [(0xF, 3)])).map (·.reg regF) = some 1#8 := by decide

/-- Vectors A-26, A-27. -/
theorem test_shl :
    (afterWord 0x801E (st [(0x0, 0x80)])).map (fun t => (t.reg 0x0, t.reg regF)) = some (0#8, 1#8) ∧
    (afterWord 0x800E (st [(0x0, 0x7F)])).map (fun t => (t.reg 0x0, t.reg regF)) = some (0xFE#8, 0#8) := by decide

/-- Vectors A-29, A-30: the drawn byte masked, whatever it is. -/
theorem test_rnd :
    (afterWord 0xC00F State.reset).map (fun t => (t.reg 0x0, t.draws)) = some (Config.rand 0 &&& 0x0F#8, 1) ∧
    (afterWord 0xC000 (st [(0x0, 9)])).map (·.reg 0x0) = some 0#8 := by
  refine ⟨rfl, ?_⟩
  have h : (afterWord 0xC000 (st [(0x0, 9)])).map (·.reg 0x0) = some (Config.rand 0 &&& 0#8) := rfl
  rw [h, BitVec.and_zero]

/-! ## Memory and index -/

/-- Vector M-1. -/
theorem test_ldI : (afterWord 0xAFFF State.reset).map (fun t => (t.i, t.pc)) = some (0xFFF#16, 0x202#16) := by decide

/-- Vectors M-2, M-5. -/
theorem test_addI :
    (afterWord 0xF31E (stI 0x0FFE [(0x3, 5)])).map (fun t => (t.i, t.reg regF)) = some (0x1003#16, 1#8) ∧
    (afterWord 0xF01E (stI 0xFFFF [(0x0, 1)])).map (fun t => (t.i, t.reg regF)) = some (0#16, 1#8) := by decide

/-- Vectors M-3, M-4. -/
theorem test_addI_vf :
    (afterWord 0xF01E (stI 0xFFE [(0x0, 1)])).map (fun t => (t.i, t.reg regF)) = some (0xFFF#16, 0#8) ∧
    (afterWord 0xFF1E (stI 0xFFF [(0xF, 1)])).map (fun t => (t.i, t.reg regF)) = some (0x1000#16, 1#8) := by decide

/-- Vectors M-6, M-8. -/
theorem test_ldF :
    (afterWord 0xF229 (st [(0x2, 7)])).map (·.i) = some 0x023#16 ∧
    (afterWord 0xF029 (st [(0x0, 0xFF)])).map (·.i) = some 0x4FB#16 := by decide

/-- Vector M-9. -/
theorem test_ldB :
    (afterWord 0xFA33 (stI 0x300 [(0xA, 156)])).map
      (fun t => (t.byteAt 0x300, t.byteAt 0x301, t.byteAt 0x302, t.byteAt 0x303, t.i)) =
      some (1#8, 5#8, 6#8, 0#8, 0x300#16) := by decide

/-- Vectors M-12, M-13. -/
theorem test_ldB_faults :
    (afterWord 0xF033 (stI 0xFFE [(0x0, 7)])).map (fun t => (t.fault, t.byteAt 0xFFE, t.byteAt 0xFFF)) =
      some (some ⟨.memWriteOob, 0x200#16, some 0xF033#16, some 0x1000⟩, 0#8, 0#8) ∧
    (afterWord 0xF033 (stI 0x04E [])).map (·.fault) =
      some (some ⟨.fontWrite, 0x200#16, some 0xF033#16, some 0x04E⟩) := by decide

/-- Vector M-16. -/
theorem test_ldMemVx :
    (afterWord 0xFF55 (stI 0xFF0 [(0x0, 0x11), (0xF, 0x22)])).map
      (fun t => (t.byteAt 0xFEF, t.byteAt 0xFF0, t.byteAt 0xFFF, t.i)) = some (0#8, 0x11#8, 0x22#8, 0x1000#16) := by
  decide

/-- Vector M-17. -/
theorem test_ldMemVx_oob :
    (afterWord 0xFF55 (stI 0xFF1 [(0x0, 0x11)])).map (fun t => (t.fault, t.byteAt 0xFF1, t.i)) =
      some (some ⟨.memWriteOob, 0x200#16, some 0xFF55#16, some 0x1000⟩, 0#8, 0xFF1#16) := by decide

/-- Vector M-19. -/
theorem test_ldVxMem :
    (afterWord 0xFF65 State.reset).map (fun t => (t.v.toList, t.i)) =
      some ([0xF0, 0x90, 0x90, 0x90, 0xF0, 0x20, 0x60, 0x20, 0x20, 0x70, 0xF0, 0x10, 0xF0, 0x80, 0xF0, 0xF0],
        0x010#16) := by decide

/-- Vector M-20. -/
theorem test_ldVxMem_oob :
    (afterWord 0xF065 (stI 0x1000 [])).map (·.fault) =
      some (some ⟨.memReadOob, 0x200#16, some 0xF065#16, some 0x1000⟩) := by decide

/-! ## Display -/

/-- Vector G-1: two rows of the glyph "1" and VF. -/
theorem test_drw :
    (afterWord 0xD015 (stI 0x005 [(0xF, 1)])).map
      (fun t => ([px 1 0, px 2 0, px 3 0, px 0 1, px 1 1, px 2 1].map (Display.cell t.display), t.reg regF)) =
      some ([0, 1, 0, 0, 1, 1], 0#8) := by decide

/-- Vectors G-4, G-5, G-6, with the glyph byte 0xF0 at address 0: the three values of DRAW_EDGE_POLICY. -/
theorem test_drw_edge :
    (afterWord 0xD011 (stI 0 [(0x0, 62), (0x1, 31)])).map
      (fun t => [px 62 31, px 63 31, px 0 31, px 1 31].map (Display.cell t.display)) = some [1, 1, 1, 1] ∧
    (afterWord 0xD011 (stP { hardwareParams with drawEdge := .clip } 0 [(0x0, 62), (0x1, 31)])).map
      (fun t => [px 62 31, px 63 31, px 0 31, px 1 31].map (Display.cell t.display)) = some [1, 1, 0, 0] ∧
    (afterWord 0xD011 (stP { hardwareParams with drawEdge := .fault } 0 [(0x0, 62), (0x1, 31)])).map (·.fault) =
      some (some ⟨.displayOob, 0x200#16, some 0xD011#16, some 2048⟩) := by decide

/-! ## Input -/

/-- Vectors K-1, K-5. -/
theorem test_skp :
    (afterWord 0xE49E (stK [9] [(0x4, 9)])).map (·.pc) = some 0x204#16 ∧
    (afterWord 0xE09E (st [(0x0, 16)])).map (·.fault) =
      some (some ⟨.keyIndexOob, 0x200#16, some 0xE09E#16, some 16⟩) := by decide

/-- Vectors K-3, K-4. -/
theorem test_sknp :
    (afterWord 0xE4A1 (st [(0x4, 9)])).map (·.pc) = some 0x204#16 ∧
    (afterWord 0xE4A1 (stK [9] [(0x4, 9)])).map (·.pc) = some 0x202#16 := by decide

/-- Vectors K-7, K-8. -/
theorem test_ldVxK :
    (afterWord 0xF10A (State.reset.setDt 2#8)).map (fun t => (t.pc, t.reg 0x1, t.dt)) = some (0x200#16, 0#8, 1#8) ∧
    (afterWord 0xF10A (stK [0, 15] [])).map (fun t => (t.pc, t.reg 0x1)) = some (0x202#16, 15#8) := by decide

/-! ## Timers -/

/-- Vector T-1. -/
theorem test_ldVxDt :
    (afterWord 0xF107 (State.reset.setDt 2#8)).map (fun t => (t.reg 0x1, t.dt)) = some (2#8, 1#8) := by decide

/-- Vectors T-3, T-4. -/
theorem test_ldDtVx :
    (afterWord 0xF015 (st [(0x0, 3)])).map (·.dt) = some 2#8 ∧
    (afterWord 0xF115 (State.reset.setDt 5#8)).map (·.dt) = some 0#8 := by decide

/-- Vectors T-5, T-7. -/
theorem test_ldStVx :
    (afterWord 0xF118 (st [(0x1, 1)])).map (fun t => (t.st, t.buzzer)) = some (0#8, true) ∧
    (afterWord 0xF118 (State.reset.setSt 1#8)).map (fun t => (t.st, t.buzzer)) = some (0#8, false) := by decide

/-! ## Host interface -/

/-- Vector W8's image, loaded and run for one step; a second load is refused. -/
theorem test_load :
    ((State.reset.load (.image [0xA2, 0x00])).toOption.bind after).map (fun t => (t.i, t.pc)) =
      some (0x200#16, 0x202#16) ∧
    (Session.mk State.reset .loaded).load .unreadable = .error .loadNotAllowed := ⟨by decide, rfl⟩

/-- A host reset leaves the count of draws (log entry 4), and an ended session gives nothing out (R253, U18). -/
theorem test_reset_and_ended :
    (State.hostReset { State.reset with draws := 3, pc := 0x300#16 }).draws = 3 ∧
    (Session.mk State.reset .ended).readState = .error .sessionEnded ∧
    (Session.mk State.reset .running).readState = .ok State.reset := ⟨rfl, rfl, rfl⟩

/-- Cell (x, y) is byte y * 64 + x of the display the host reads (R225). -/
theorem test_readDisplay :
    (State.readDisplay { State.reset with display := Display.setCell displayClear (px 3 1) 1#8 }).take 68 =
      List.replicate 67 0#8 ++ [1#8] := by decide

/-! ## Witnesses: states and operands that meet the hypotheses of each statement that has any -/

/-- This spec's parameters with one changed. -/
def allowFont : Params := { hardwareParams with fontWrite := .allow }
def faultEdge : Params := { hardwareParams with drawEdge := .fault }
def fetchOdd : Params := { hardwareParams with oddPc := .fetch }
def flagFirst : Params := { hardwareParams with flagOrder := .flagThenResult }

/-- The reset state about to run the word `w`. -/
def about (w : Nat) : State := State.reset.withFetchWord 16 w

/-- A faulted state. -/
def stopped : State := { State.reset with fault := some ⟨.fetchOob, 0xFFF#16, none, some 0xFFF⟩ }

theorem witness_DecodeOfEncode :
    Instr.wf (.sys 0x0DF#12) = true ∧ Instr.wf (.sys 0x0E1#12) = true ∧ Instr.wf (.sys 0x0EF#12) = true ∧
    Instr.wf (.drw 0xF#4 0xF#4 0xF#4) = true := by decide

theorem witness_EncodeOfDecode :
    decode 0x81F6#16 = .ok (.shr 0x1#4 0xF#4) ∧ decode 0xFF65#16 = .ok (.ldVxMem 0xF#4) := by decide

theorem witness_UnknownWordsExactly :
    (about 0x5121).fault = none ∧ (about 0x5121).fetch = .ok 0x5121#16 ∧ ∀ i, decode 0x5121#16 ≠ .ok i := by
  refine ⟨rfl, by decide, fun i h => ?_⟩
  rw [test_decode_unknown.1] at h
  cases h

theorem witness_ReturnPopsStack :
    (State.reset.push 0x204#16).sp.val ≠ 0 ∧ { State.reset with sp := 16 }.sp.val ≠ 0 ∧ State.reset.sp.val = 0 := by
  decide

theorem witness_SysFaults :
    0x0DF#12 ≠ 0x0E0#12 ∧ 0x0E1#12 ≠ 0x0E0#12 ∧ 0x0E1#12 ≠ 0x0EE#12 ∧ 0x0EF#12 ≠ 0x0EE#12 := by decide

theorem witness_CallPushesOwnAddress :
    { State.reset with sp := 15 }.sp.val ≠ 16 ∧ { State.reset with sp := 16 }.sp.val = 16 := by decide

theorem witness_FlagCommitOrder :
    0xE#4 ≠ regF ∧ 0x0#4 ≠ 0xE#4 ∧ State.reset.params.flagOrder = .resultThenFlag ∧
    (stP flagFirst 0 []).params.flagOrder = .flagThenResult := by decide

/-- Both hypotheses of each flag writer: a destination below VF, and VF under either FLAG_ORDER. -/
theorem witness_AddWithCarry_SubIntoVy_SubnIntoVx_ShiftRight_ShiftLeft :
    (0xE#4 ≠ regF ∨ State.reset.params.flagOrder = .flagThenResult) ∧
    (0xF#4 ≠ regF ∨ State.reset.params.flagOrder = .resultThenFlag) ∧
    (0xF#4 ≠ regF ∨ (stP flagFirst 0 []).params.flagOrder = .flagThenResult) := by decide

theorem witness_StoreDecimal_completes :
    (stI 0xFFD []).mem.wf = true ∧ (stI 0xFFD []).dataAddr 2 ≤ 0xFFF ∧ 0x04F < (stI 0xFFD []).dataAddr 0 ∧
    (stI 0x050 []).dataAddr 2 ≤ 0xFFF ∧ 0x04F < (stI 0x050 []).dataAddr 0 ∧
    (stP allowFont 0 []).mem.wf = true ∧ (stP allowFont 0 []).dataAddr 2 ≤ 0xFFF ∧
    (stP allowFont 0 []).params.fontWrite = .allow := by decide

theorem witness_StoreDecimal_faults :
    (stI 0xFFE []).dataAddr 2 > 0xFFF ∧ (stI 0xFFFF []).dataAddr 2 > 0xFFF ∧ (stI 0x04F []).dataAddr 0 ≤ 0x04F ∧
    (stI 0x04F []).params.fontWrite = .fault ∧ (stI 0 []).dataAddr 0 ≤ 0x04F := by decide

theorem witness_StoreRegisters_completes :
    (stI 0xFF0 []).mem.wf = true ∧ (stI 0xFF0 []).dataAddr (0xF : Reg).toNat ≤ 0xFFF ∧
    0x04F < (stI 0xFF0 []).dataAddr 0 ∧ (0xF : Reg).toNat ≤ (0xF : Reg).toNat ∧
    (stI 0xFFF []).dataAddr (0 : Reg).toNat ≤ 0xFFF ∧ 0x04F < (stI 0x050 []).dataAddr 0 ∧
    (stP allowFont 0x04F []).dataAddr (0xF : Reg).toNat ≤ 0xFFF ∧ (stP allowFont 0 []).params.fontWrite = .allow := by
  decide

theorem witness_StoreRegisters_faults :
    (stI 0xFF1 []).dataAddr (0xF : Reg).toNat > 0xFFF ∧ 0x04F < (stI 0xFF1 []).dataAddr 0 ∧
    (stI 0x1000 []).dataAddr (0 : Reg).toNat > 0xFFF ∧ (stI 0x04F []).dataAddr 0 ≤ 0x04F ∧
    (stI 0x04F []).params.fontWrite = .fault := by decide

theorem witness_LoadRegisters :
    (stI 0xFF0 []).dataAddr (0xF : Reg).toNat ≤ 0xFFF ∧ (stI 0xFFF []).dataAddr (0 : Reg).toNat ≤ 0xFFF ∧
    (stI 0xFF1 []).dataAddr (0xF : Reg).toNat > 0xFFF ∧ (stI 0x1000 []).dataAddr (0 : Reg).toNat > 0xFFF := by decide

/-- Under `wrap` every sprite is placeable. -/
theorem placeable_wrap {s : State} (h : s.params.drawEdge = .wrap) (x y : Reg) (n : Count) : s.SpritePlaceable x y n := by
  intro hf
  rw [h] at hf
  cases hf

theorem witness_DrawSprite :
    (stI 0xFF1 []).SpriteReadable 15 ∧ (stI 0xFF1 []).SpritePlaceable 0 1 15 ∧
    (stI 0xFFFF []).SpriteReadable 0 ∧ (stI 0xFFFF []).SpritePlaceable 0xF 0xF 0 ∧
    (stP faultEdge 0 [(0x0, 56), (0x1, 31)]).SpriteReadable 1 ∧
    (stP faultEdge 0 [(0x0, 56), (0x1, 31)]).SpritePlaceable 0 1 1 := by
  refine ⟨.inl (by decide), placeable_wrap rfl _ _ _, .inr rfl, placeable_wrap rfl _ _ _, .inl (by decide), ?_⟩
  intro _ r c hr hc _
  have h1 : (stP faultEdge 0 [(0x0, 56), (0x1, 31)]).spriteX 0 c = 56 + c := rfl
  have h2 : (stP faultEdge 0 [(0x0, 56), (0x1, 31)]).spriteY 1 r = 31 + r := rfl
  have hr1 : r < 1 := hr
  omega

/-- A hit cell for the statement's clause on cells: the first bit of the glyph "0" lands on (0, 0). -/
theorem witness_DrawSprite_hit : State.reset.Hits 0 1 1 (px 0 0) :=
  ⟨0, 0, by decide, by decide, show (State.reset.byteAt (State.reset.dataAddr 0)).getLsbD (7 - 0) = true by decide,
    show (0 = 0 % 64 ∧ 0 = 0 % 32) by decide⟩

theorem witness_DrawSprite_faults_read : ¬ (stI 0xFF2 []).SpriteReadable 15 ∧ ¬ (stI 0xFFFF []).SpriteReadable 15 := by
  constructor <;> (rw [spriteReadable_iff]; decide)

theorem witness_DrawSprite_faults_display :
    (stP faultEdge 0 [(0x0, 62), (0x1, 31)]).SpriteReadable 1 ∧
    (stP faultEdge 0 [(0x0, 62), (0x1, 31)]).params.drawEdge = .fault ∧ 0 < (1 : Count).toNat ∧ 2 < 8 ∧
    (stP faultEdge 0 [(0x0, 62), (0x1, 31)]).spriteSet 0 2 ∧
    ((stP faultEdge 0 [(0x0, 62), (0x1, 31)]).spriteX 0 2 > 63 ∨
      (stP faultEdge 0 [(0x0, 62), (0x1, 31)]).spriteY 1 0 > 31) ∧
    ∀ r' c', r' < (1 : Count).toNat → c' < 8 → (stP faultEdge 0 [(0x0, 62), (0x1, 31)]).spriteSet r' c' →
      (r' < 0 ∨ r' = 0 ∧ c' < 2) →
      (stP faultEdge 0 [(0x0, 62), (0x1, 31)]).spriteX 0 c' ≤ 63 ∧
        (stP faultEdge 0 [(0x0, 62), (0x1, 31)]).spriteY 1 r' ≤ 31 := by
  refine ⟨.inl (by decide), rfl, by decide, by decide,
    show ((stP faultEdge 0 [(0x0, 62), (0x1, 31)]).byteAt 0).getLsbD 5 = true by decide, .inl (by decide), ?_⟩
  intro r' c' _ _ _ h
  have h1 : (stP faultEdge 0 [(0x0, 62), (0x1, 31)]).spriteX 0 c' = 62 + c' := rfl
  have h2 : (stP faultEdge 0 [(0x0, 62), (0x1, 31)]).spriteY 1 r' = 31 + r' := rfl
  omega

/-- Every hypothesis together: a clear display, the glyph "1" at (0, 0), and the same draw as the second one of (d). -/
theorem witness_DrawTwiceRestores :
    (∀ p, Display.cell (stI 5 []).display p = 0x00#8) ∧ (stI 5 []).SpriteReadable 5 ∧
    (stI 5 []).SpritePlaceable 0 1 5 ∧
    (∃ t, exec (.drw 0 1 5) (stI 5 []) = .next t ∧ t.reg 0 = (stI 5 []).reg 0 ∧ t.reg 1 = (stI 5 []).reg 1) ∧
    (∀ p, (stI 5 []).Hits 0 1 5 p ↔ (stI 5 []).Hits 0 1 5 p) :=
  ⟨fun p => cell_displayClear p, .inl (by decide), placeable_wrap rfl _ _ _, ⟨_, rfl, by decide, by decide⟩,
    fun _ => Iff.rfl⟩

theorem witness_SkipOnKey :
    ((st [(0x4, 15)]).reg 0x4).toNat ≤ 15 ∧ ((st [(0x4, 16)]).reg 0x4).toNat > 15 := by decide

theorem witness_WaitForKey :
    (∀ k, k < 16 → State.reset.keyDown k = false) ∧
    (0 < 16 ∧ (stK [0] []).keyDown 0 = true ∧ ∀ j, j < 16 → 0 < j → (stK [0] []).keyDown j = false) ∧
    (15 < 16 ∧ (stK [0, 15] []).keyDown 15 = true ∧ ∀ j, j < 16 → 15 < j → (stK [0, 15] []).keyDown j = false) := by
  decide

theorem witness_SetDelay_SetSound : State.reset.fault = none ∧ State.reset.buzzer = false := by decide

theorem witness_StepRunsDecoded :
    ((State.reset.setPc 0xFFE#16).withFetchWord 16 0x1234).fault = none ∧
    ((State.reset.setPc 0xFFE#16).withFetchWord 16 0x1234).pc.toNat ≤ 0xFFE ∧
    ((State.reset.setPc 0xFFE#16).withFetchWord 16 0x1234).pc.toNat % 2 = 0 ∧
    decode (BitVec.ofNat 16 ((((State.reset.setPc 0xFFE#16).withFetchWord 16 0x1234).byteAt 0xFFE).toNat * 256 +
      (((State.reset.setPc 0xFFE#16).withFetchWord 16 0x1234).byteAt 0xFFF).toNat)) = .ok (.jp 0x234#12) := by decide

theorem witness_FetchRule :
    (State.reset.setPc 0xFFF#16).fault = none ∧ (State.reset.setPc 0xFFF#16).pc.toNat > 0xFFE ∧
    (State.reset.setPc 0xFFD#16).pc.toNat ≤ 0xFFE ∧ (State.reset.setPc 0xFFD#16).pc.toNat % 2 = 1 ∧
    (State.reset.setPc 0xFFD#16).params.oddPc = .fault ∧
    ((stP fetchOdd 0 []).setPc 0xFFD#16).params.oddPc = .fetch ∧ (State.reset.setPc 0xFFE#16).pc.toNat % 2 = 0 := by
  decide

theorem witness_RunningStepAnswers : State.reset.fault = none := rfl

/-- A step that faults in its fetch, and one that faults in its instruction. -/
theorem witness_FaultsArePrecise_FaultRecordNamesStep :
    (∃ t r, (State.reset.setPc 0x201#16).fault = none ∧ step (State.reset.setPc 0x201#16) = .next t ∧
      t.fault = some r ∧ r.code = .misalignedFetch) ∧
    (∃ t r, (about 0x5121).fault = none ∧ step (about 0x5121) = .next t ∧ t.fault = some r ∧
      r.code ≠ .fetchOob ∧ r.code ≠ .misalignedFetch) :=
  ⟨⟨_, _, rfl, rfl, rfl, rfl⟩, ⟨_, _, rfl, rfl, rfl, by decide, by decide⟩⟩

theorem witness_StoppedCoreStays :
    stopped.fault = some ⟨.fetchOob, 0xFFF#16, none, some 0xFFF⟩ ∧ (Session.mk stopped .running).phase ≠ .ended ∧
    (Session.mk stopped .running).core.fault = some ⟨.fetchOob, 0xFFF#16, none, some 0xFFF⟩ := by decide

/-- The code of the fault the next step raises. -/
def raises (s : State) : Option FaultCode := ((after s).bind (·.fault)).map (·.code)

/-- Every code a step can raise is raised by some step of a running core. -/
theorem witness_FaultCauses :
    raises (about 0x8018) = some .unknownInstruction ∧ raises State.reset = some .unsupportedSys ∧
    raises ({ State.reset with sp := 16 }.withFetchWord 16 0x2300) = some .stackOverflow ∧
    raises (about 0x00EE) = some .stackUnderflow ∧
    raises ((stI 0x1000 []).withFetchWord 16 0xF065) = some .memReadOob ∧
    raises ((stI 0x1000 []).withFetchWord 16 0xF055) = some .memWriteOob ∧
    raises ((stI 0x04F []).withFetchWord 16 0xF055) = some .fontWrite ∧
    raises (State.reset.setPc 0xFFF#16) = some .fetchOob ∧
    raises (State.reset.setPc 0x201#16) = some .misalignedFetch ∧
    raises ((st [(0x0, 16)]).withFetchWord 16 0xE0A1) = some .keyIndexOob ∧
    raises ((stP faultEdge 0 [(0x0, 62)]).withFetchWord 16 0xD011) = some .displayOob := by decide

theorem witness_TickAfterInstruction :
    (about 0x6000).Executes 0x6000#16 (.ldImm 0 0) ∧
    (∃ t, exec (.ldImm 0 0) (about 0x6000).clearOutputs = .next t ∧ t.fault = none) ∧
    (∃ t r, (about 0x5121).fault = none ∧ step (about 0x5121) = .next t ∧ t.fault = some r) :=
  ⟨⟨rfl, by decide, by decide⟩, ⟨_, rfl, rfl⟩, ⟨_, _, rfl, rfl, rfl⟩⟩

/-- A quiet run of two steps, at a self-jump. -/
theorem witness_TimersCountDown :
    (∃ u, QuietRun 2 (about 0x1200) u) ∧ stopped.fault = some ⟨.fetchOob, 0xFFF#16, none, some 0xFFF⟩ := by
  have h : (about 0x1200).Executes 0x1200#16 (.jp 0x200) := ⟨rfl, by decide, by decide⟩
  have h' : ((about 0x1200).clearOutputs.setPc (zextAddr 0x200)).endStep.Executes 0x1200#16 (.jp 0x200) :=
    ⟨rfl, by decide, by decide⟩
  exact ⟨⟨_, .succ h (fun hw => hw) (step_of_executes h rfl) rfl
    (.succ h' (fun hw => hw) (step_of_executes h' rfl) rfl (.zero _))⟩, rfl⟩

theorem witness_OutputsBelongToStep :
    (about 0x00E0).fault = none ∧ (∃ t, step (about 0x00E0) = .next t ∧ t.clearReq = true) ∧
    (∃ t, step (about 0x6000) = .next t ∧ t.clearReq = false) := ⟨rfl, ⟨_, rfl, rfl⟩, ⟨_, rfl, rfl⟩⟩

/-- A register neither read nor written, one written and not read, and one read and not written. -/
theorem witness_RegistersReadAndWritten :
    (∃ t, exec (.ldReg 0x1 0x2) State.reset = .next t) ∧
    ¬ writesReg 0x3 (.ldReg 0x1 0x2) ∧ ¬ readsReg 0x3 (.ldReg 0x1 0x2) ∧ ¬ readsReg 0x1 (.ldReg 0x1 0x2) ∧
    ¬ writesReg 0x2 (.ldReg 0x1 0x2) :=
  ⟨exec_answers _ _, show ¬ (0x3#4 = 0x1#4) by decide, show ¬ (0x3#4 = 0x2#4) by decide,
    show ¬ (0x1#4 = 0x2#4) by decide, show ¬ (0x2#4 = 0x1#4) by decide⟩

/-- Each kind of state is changed by some instruction. -/
theorem witness_SpecialStateWriters :
    (afterWord 0xA300 State.reset).map (·.i) ≠ some State.reset.i ∧
    (afterWord 0x2300 State.reset).map (·.sp) ≠ some State.reset.sp ∧
    (afterWord 0x2300 State.reset).map (·.stackAt 0) ≠ some (State.reset.stackAt 0) ∧
    (afterWord 0xF015 (st [(0x0, 9)])).map (·.dt) ≠ some (st [(0x0, 9)]).dt ∧
    (afterWord 0xF018 (st [(0x0, 9)])).map (·.st) ≠ some (st [(0x0, 9)]).st ∧
    (afterWord 0xD001 State.reset).map (fun t => Display.cell t.display (px 0 0)) ≠ some 0#8 ∧
    (afterWord 0xF033 (stI 0x300 [(0x0, 9)])).map (·.byteAt 0x302) ≠ some 0#8 := by decide

theorem witness_FontStaysReadOnly :
    State.reset.mem.wf = true ∧ State.reset.params.fontWrite = .fault ∧ (∃ t, step State.reset = .next t) ∧
    0x04F ≤ 0x04F := ⟨rfl, rfl, ⟨_, rfl⟩, Nat.le_refl _⟩

/-- The program P7's store at 0x206 into 0x208, and a store whose last two bytes are the next word. -/
theorem witness_StoresAreFetched :
    (∃ t, exec (.ldMemVx 1) ((stI 0x208 [(0x0, 0x12), (0x1, 0x08)]).setPc 0x206#16) = .next t ∧ t.fault = none ∧
      t.pc.toNat = 0x208 + 0 ∧ t.pc.toNat % 2 = 0) ∧
    (∃ t, exec (.ldMemVx 0xF) ((stI 0x1FA [(0xE, 0x12)]).setPc 0x206#16) = .next t ∧ t.fault = none ∧
      t.pc.toNat = 0x1FA + 14 ∧ t.pc.toNat % 2 = 0) := by
  refine ⟨⟨_, rfl, by decide⟩, ⟨_, rfl, by decide⟩⟩

theorem witness_CallThenReturn : State.reset.sp.val ≠ 16 ∧ { State.reset with sp := 15 }.sp.val ≠ 16 := by decide

theorem witness_KeyWaitHangs : (about 0xF30A).WaitingEnd := by
  refine ⟨⟨0xF30A#16, 0x3, rfl, by decide, by decide⟩, fun k => ?_⟩
  unfold State.keyDown
  split
  · rename_i h; exact (show ∀ j (hj : j < 16), (about 0xF30A).keys[j] = false by decide) k h
  · rfl

theorem witness_SelfJumpIdles : (about 0x1200).IdleEnd := ⟨0x1200#16, 0x200, ⟨rfl, by decide, by decide⟩, rfl⟩

/-- A state inside a subroutine, about to return, with the invariant. -/
def inCall : State := ((State.reset.push 0x204#16).setPc 0x300#16).withFetchWord 16 0x00EE

theorem witness_StepKeepsInv : inCall.Inv ∧ ∃ t, step inCall = .next t := by
  refine ⟨⟨by decide, fun p => .inl (cell_displayClear p), by decide, fun k hk => ?_, fun h => absurd rfl h⟩, ⟨_, rfl⟩⟩
  have h1 : k < 1 := hk
  have h0 : k = 0 := by omega
  subst h0
  exact ⟨by decide, fun _ => by decide⟩

theorem witness_HostKeepsInv : inCall.Inv ∧ ∃ t, inCall.load (.image [0x12, 0x00]) = .ok t :=
  ⟨witness_StepKeepsInv.1, ⟨_, rfl⟩⟩

theorem witness_ResetState : 79 < 80 ∧ 80 ≤ 80 := by decide

theorem witness_LoadPlacesImage :
    (Session.start hardwareParams).phase = .fresh ∧ (Session.start hardwareParams).core.mem.wf = true ∧
    (List.replicate 3232 0x12#8).length ≤ 3232 ∧ (Session.mk State.reset .loaded).phase = .loaded ∧
    (Session.mk State.reset .running).phase = .running ∧
    ∃ h' r, (Session.start hardwareParams).step = .ok (h', r) :=
  ⟨rfl, by decide, by rw [List.length_replicate], rfl, rfl, ⟨_, _, rfl⟩⟩

theorem witness_LoadErrorEndsSession :
    (Session.start hardwareParams).phase = .fresh ∧ (List.replicate 3233 0x12#8).length > 3232 ∧
    (Session.mk State.reset .ended).phase = .ended :=
  ⟨rfl, by rw [List.length_replicate]; decide, rfl⟩

end Sys2Proof.Tests
end

/-! ## Proofs: encoding. What a fetch answers in each case of PC, and what its fault does to the step (30_encoding.md
rule R70). -/

namespace Sys2Proof.Machine

/-- The first check of a fetch (R70). -/
theorem fetch_of_pc_gt {s : State} (hpc : s.pc.toNat > 0xFFE) : s.fetch = .error ⟨.fetchOob, some s.pc.toNat⟩ :=
  if_pos hpc

/-- The second check of a fetch, made only where the first passes (R70). -/
theorem fetch_of_odd_pc {s : State} (hpc : s.pc.toNat ≤ 0xFFE) (hodd : s.pc.toNat % 2 = 1)
    (hpol : s.params.oddPc = .fault) : s.fetch = .error ⟨.misalignedFetch, some s.pc.toNat⟩ := by
  rw [State.fetch, if_neg (Nat.not_lt.2 hpc), if_pos ⟨hodd, hpol⟩]

/-- A fetch that passes both checks (R70): of the cases of `fetch_cases`, only the last admits such a PC. -/
theorem fetch_of_checks_pass {s : State} (hpc : s.pc.toNat ≤ 0xFFE)
    (hpass : s.pc.toNat % 2 = 0 ∨ s.params.oddPc = .fetch) : s.fetch = .ok (s.wordAt s.pc.toNat) := by
  obtain ⟨hoob, -⟩ | ⟨-, hodd, hpol, -⟩ | ⟨-, -, hfetch⟩ := fetch_cases s
  · exact absurd hpc (Nat.not_le.2 hoob)
  · obtain heven | hpol' := hpass
    · omega
    · rw [hpol] at hpol'; cases hpol'
  · exact hfetch

/-- A fault of the fetch is the step's, with no word in its record (R200, R208). -/
theorem step_of_fetch_error {s : State} {c : FaultCause} (hrun : s.fault = none) (hfetch : s.fetch = .error c) :
    step s = .next (s.takeFault c none) := by
  have hcleared : s.clearOutputs.fetch = .error c := hfetch
  rw [step, hrun]
  simp only [State.runStep, hcleared]
  rfl

/-- Settles O37: `step_of_fetch_error` at either check of the fetch, and the big-endian word where both pass. -/
theorem fetchRule : Obligations.FetchRule := by
  intro s hrun
  refine ⟨fun hpc => ?oob, fun hpc hodd hpol => ?misaligned, fun hpc hpass => ?word⟩
  case oob => exact step_of_fetch_error hrun (fetch_of_pc_gt hpc)
  case misaligned => exact step_of_fetch_error hrun (fetch_of_odd_pc hpc hodd hpol)
  case word => exact ⟨_, fetch_of_checks_pass hpc hpass, wordOfBytes_toNat _ _⟩

end Sys2Proof.Machine

/-! ## Proofs: control flow. The frame rules of the updates that CLS, RET, CALL, the jumps and the skips are made of,
what decoding gives for their words, and the eight statements (40_control_flow.md). -/

namespace Sys2Proof

/-- The words of the jumps: the major opcode alone selects (R73). -/
@[simp] theorem decode_packNNN_jp (nnn : Addr12) : decode (packNNN 0x1#4 nnn) = .ok (.jp nnn) := by simp [decode]

@[simp] theorem decode_packNNN_call (nnn : Addr12) : decode (packNNN 0x2#4 nnn) = .ok (.call nnn) := by simp [decode]

@[simp] theorem decode_packNNN_jpV0 (nnn : Addr12) : decode (packNNN 0xB#4 nnn) = .ok (.jpV0 nnn) := by simp [decode]

/-- A packed word determines its NNN. -/
theorem packNNN_inj {op : BitVec 4} {nnn mmm : Addr12} : packNNN op nnn = packNNN op mmm ↔ nnn = mmm :=
  ⟨fun h => by simpa using congrArg fieldNNN h, congrArg (packNNN op)⟩

/-- Major opcode 0x0 reads SYS from every word but those of CLS and RET (R76). -/
theorem decode_packNNN_sys {nnn : Addr12} (hcls : nnn ≠ 0x0E0#12) (hret : nnn ≠ 0x0EE#12) :
    decode (packNNN 0x0#4 nnn) = .ok (.sys nnn) := by
  have hclsWord : packNNN 0x0#4 nnn ≠ 0x00E0#16 := mt (packNNN_inj (mmm := 0x0E0#12)).1 hcls
  have hretWord : packNNN 0x0#4 nnn ≠ 0x00EE#16 := mt (packNNN_inj (mmm := 0x0EE#12)).1 hret
  simp [decode, decode0, hclsWord, hretWord]

@[simp] theorem decode_packXNN_seImm (x : Reg) (nn : Byte) : decode (packXNN 0x3#4 x nn) = .ok (.seImm x nn) := by
  simp [decode]

@[simp] theorem decode_packXNN_sneImm (x : Reg) (nn : Byte) : decode (packXNN 0x4#4 x nn) = .ok (.sneImm x nn) := by
  simp [decode]

/-- Major opcode 0x5: only N = 0 is an instruction (R75). -/
theorem decode_packXYN_seReg (x y : Reg) (n : BitVec 4) : decode (packXYN 0x5#4 x y n) =
    if n = 0x0#4 then .ok (.seReg x y) else .error (.unknown (packXYN 0x5#4 x y n)) := by simp [decode]

/-- Major opcode 0x9: only N = 0 is an instruction (R75). -/
theorem decode_packXYN_sneReg (x y : Reg) (n : BitVec 4) : decode (packXYN 0x9#4 x y n) =
    if n = 0x0#4 then .ok (.sneReg x y) else .error (.unknown (packXYN 0x9#4 x y n)) := by simp [decode]

end Sys2Proof

namespace Sys2Proof.Machine

/-! ### Frames -/

theorem Unchanged.refl (f : Footprint) (s : State) : Unchanged f s s := by
  constructor <;> intros <;> rfl

/-- PC stands in no footprint, so a write to it keeps every frame. -/
theorem Unchanged.setPc {f : Footprint} {s t : State} (h : Unchanged f s t) (w : Word) : Unchanged f s (t.setPc w) :=
  { h with }

/-- A push changes SP and the entry at the old SP (R26). -/
theorem unchanged_push {s : State} (w : Word) (hsp : s.sp.val < 16) :
    Unchanged { sp := True, entries := fun k => k = s.sp.val } s (s.push w) :=
  { Unchanged.refl {} s with
    sp := fun h => absurd trivial h
    entries := fun k hk => by rw [stackAt_push s w k hsp, if_neg hk] }

/-- A pop changes SP alone: the popped entry is kept (R25). -/
theorem unchanged_pop (s : State) : Unchanged { sp := True } s s.pop :=
  { Unchanged.refl {} s with sp := fun h => absurd trivial h }

theorem unchanged_clearDisplay (s : State) :
    Unchanged { cells := fun _ => True, clearReq := True } s { s with display := displayClear, clearReq := true } :=
  { Unchanged.refl {} s with
    cells := fun _ h => absurd trivial h
    clearReq := fun h => absurd trivial h }

/-! ### How an instruction ends -/

/-- An instruction that completes with a fault of its checks takes exactly that fault (R203, R208). -/
theorem takesFault_of_complete {i : Instr} {s : State} {w : Word} {c : FaultCause}
    (h : exec i s = s.complete w (.error c)) : TakesFault i s ⟨c.code, s.pc, some w, c.info⟩ := h

/-- An instruction that only writes PC. -/
theorem completes_setPc {i : Instr} {s : State} {w : Word} (h : exec i s = .next (s.setPc w)) :
    ∃ t, exec i s = .next t ∧ t.pc = w ∧ Unchanged {} s t :=
  ⟨_, h, rfl, (Unchanged.refl {} s).setPc w⟩

/-- A skip instruction whose condition decides `p` (R104): 4 further when `p` holds and 2 otherwise. -/
theorem completes_skipIf {i : Instr} {s : State} {taken : Bool} {p : Prop} [Decidable p]
    (h : exec i s = .next (s.skipIf taken)) (hp : taken = true ↔ p) :
    ∃ t, exec i s = .next t ∧ t.pc = (if p then s.pc + 4#16 else s.pc + 2#16) ∧ Unchanged {} s t := by
  obtain ⟨t, hexec, hpc, hframe⟩ := completes_setPc h
  refine ⟨t, hexec, ?_, hframe⟩
  rw [hpc, ← apply_ite (s.pc + ·)]
  exact congrArg (s.pc + ·) (if_congr hp rfl rfl)

/-! ### Jump targets -/

@[simp] theorem zextAddr_toNat (nnn : Addr12) : (zextAddr nnn).toNat = nnn.toNat :=
  BitVec.toNat_setWidth_of_le (by decide)

@[simp] theorem zextByte_toNat (b : Byte) : (zextByte b).toNat = b.toNat :=
  BitVec.toNat_setWidth_of_le (by decide)

/-- A 12-bit address plus a byte does not wrap at 16 bits (R108). -/
theorem zextAddr_add_zextByte_toNat (nnn : Addr12) (b : Byte) :
    (zextAddr nnn + zextByte b).toNat = nnn.toNat + b.toNat := by
  have haddr := nnn.isLt
  have hbyte := b.isLt
  rw [BitVec.toNat_add, zextAddr_toNat, zextByte_toNat]
  omega

/-! ### The arms of SYS, RET and CALL, by their checks -/

theorem exec_sys (nnn : Addr12) (s : State) :
    exec (.sys nnn) s = s.complete (encode (.sys nnn)) (.error ⟨.unsupportedSys, none⟩) := rfl

theorem exec_ret_of_empty {s : State} (hsp : s.sp.val = 0) :
    exec .ret s = s.complete (encode .ret) (.error ⟨.stackUnderflow, none⟩) :=
  congrArg (s.complete _) (if_pos hsp)

theorem exec_ret_of_nonempty {s : State} (hsp : s.sp.val ≠ 0) :
    exec .ret s = .next (s.pop.setPc (s.stackAt (s.sp.val - 1) + 2#16)) :=
  congrArg (s.complete _) (if_neg hsp)

theorem exec_call_of_full {s : State} (nnn : Addr12) (hsp : s.sp.val = 16) :
    exec (.call nnn) s = s.complete (encode (.call nnn)) (.error ⟨.stackOverflow, none⟩) :=
  congrArg (s.complete _) (if_pos hsp)

theorem exec_call_of_not_full {s : State} (nnn : Addr12) (hsp : s.sp.val ≠ 16) :
    exec (.call nnn) s = .next ((s.push s.pc).setPc (zextAddr nnn)) :=
  congrArg (s.complete _) (if_neg hsp)

/-! ### The statements -/

/-- Settles O5: the frame of the cleared display, kept by the advance of PC. -/
theorem clearScreen : Obligations.ClearScreen := by
  refine ⟨by decide, fun s => ⟨_, rfl, ?cells, rfl, rfl, (unchanged_clearDisplay s).setPc _⟩⟩
  case cells => exact cell_displayClear

/-- Settles O6, by the check of SP. -/
theorem returnPopsStack : Obligations.ReturnPopsStack := by
  refine ⟨by decide, fun s hsp => ?pops, fun s hsp => ?underflow⟩
  case pops => exact ⟨_, exec_ret_of_nonempty hsp, sp_pop s, rfl, (unchanged_pop s).setPc _⟩
  case underflow => exact takesFault_of_complete (exec_ret_of_empty hsp)

/-- Settles O7: SYS is a fault taken, from every state. -/
theorem sysFaults : Obligations.SysFaults :=
  fun nnn hcls hret => ⟨decode_packNNN_sys hcls hret, fun s => takesFault_of_complete (exec_sys nnn s)⟩

/-- Settles O8. -/
theorem jumpSetsPc : Obligations.JumpSetsPc := by
  refine fun nnn => ⟨decode_packNNN_jp nnn, fun s => ?_⟩
  obtain ⟨t, hexec, hpc, hframe⟩ := completes_setPc (i := .jp nnn) (s := s) rfl
  exact ⟨t, hexec, by rw [hpc, zextAddr_toNat], hframe⟩

/-- Settles O9, by the check of SP. -/
theorem callPushesOwnAddress : Obligations.CallPushesOwnAddress := by
  refine fun nnn => ⟨decode_packNNN_call nnn, fun s hsp => ?pushes, fun s hsp => ?overflow⟩
  case pushes =>
    have hlt : s.sp.val < 16 := Nat.lt_of_le_of_ne (Nat.le_of_lt_succ s.sp.isLt) hsp
    have hentry : (s.push s.pc).stackAt s.sp.val = s.pc := by rw [stackAt_push s s.pc _ hlt, if_pos rfl]
    exact ⟨_, exec_call_of_not_full nnn hsp, hentry, sp_push s s.pc hlt, zextAddr_toNat nnn,
      (unchanged_push s.pc hlt).setPc _⟩
  case overflow => exact takesFault_of_complete (exec_call_of_full nnn hsp)

/-- Settles O10: both forms skip on the `==` of their operands. -/
theorem skipIfEqual : Obligations.SkipIfEqual :=
  ⟨fun x nn => ⟨decode_packXNN_seImm x nn, fun _ => completes_skipIf rfl beq_iff_eq⟩, decode_packXYN_seReg,
    fun _ _ _ => completes_skipIf rfl beq_iff_eq⟩

/-- Settles O11: both forms skip on the `!=` of their operands. -/
theorem skipIfNotEqual : Obligations.SkipIfNotEqual :=
  ⟨fun x nn => ⟨decode_packXNN_sneImm x nn, fun _ => completes_skipIf rfl bne_iff_ne⟩, decode_packXYN_sneReg,
    fun _ _ _ => completes_skipIf rfl bne_iff_ne⟩

/-- Settles O12: the exact sum fits in 16 bits. -/
theorem jumpPlusV0 : Obligations.JumpPlusV0 := by
  refine fun nnn => ⟨decode_packNNN_jpV0 nnn, fun s => ?_⟩
  obtain ⟨t, hexec, hpc, hframe⟩ := completes_setPc (i := .jpV0 nnn) (s := s) rfl
  exact ⟨t, hexec, by rw [hpc]; exact zextAddr_add_zextByte_toNat nnn _, hframe⟩

end Sys2Proof.Machine

/-! ## Proofs: arithmetic and logic. What decoding gives for the words of LD, ADD and the 8XY group, what a flagged
commit leaves in every register, the flags as numbers, and the nine statements (41_arithmetic_logic.md). -/

namespace Sys2Proof

@[simp] theorem decode_packXNN_ldImm (x : Reg) (nn : Byte) : decode (packXNN 0x6#4 x nn) = .ok (.ldImm x nn) := by
  simp [decode]

@[simp] theorem decode_packXNN_addImm (x : Reg) (nn : Byte) : decode (packXNN 0x7#4 x nn) = .ok (.addImm x nn) := by
  simp [decode]

/-- The words of major opcode 0x8: the function nibble selects (R73). -/
@[simp] theorem decode_packXYN_op8 (x y : Reg) (n : BitVec 4) :
    decode (packXYN 0x8#4 x y n) = decode8 (packXYN 0x8#4 x y n) := by simp [decode]

@[simp] theorem decode8_packXYN_ldReg (op : BitVec 4) (x y : Reg) :
    decode8 (packXYN op x y 0x0#4) = .ok (.ldReg x y) := by simp [decode8]

@[simp] theorem decode8_packXYN_orReg (op : BitVec 4) (x y : Reg) :
    decode8 (packXYN op x y 0x1#4) = .ok (.orReg x y) := by simp [decode8]

@[simp] theorem decode8_packXYN_andReg (op : BitVec 4) (x y : Reg) :
    decode8 (packXYN op x y 0x2#4) = .ok (.andReg x y) := by simp [decode8]

@[simp] theorem decode8_packXYN_xorReg (op : BitVec 4) (x y : Reg) :
    decode8 (packXYN op x y 0x3#4) = .ok (.xorReg x y) := by simp [decode8]

@[simp] theorem decode8_packXYN_addReg (op : BitVec 4) (x y : Reg) :
    decode8 (packXYN op x y 0x4#4) = .ok (.addReg x y) := by simp [decode8]

@[simp] theorem decode8_packXYN_sub (op : BitVec 4) (x y : Reg) :
    decode8 (packXYN op x y 0x5#4) = .ok (.sub x y) := by simp [decode8]

@[simp] theorem decode8_packXYN_shr (op : BitVec 4) (x y : Reg) :
    decode8 (packXYN op x y 0x6#4) = .ok (.shr x y) := by simp [decode8]

@[simp] theorem decode8_packXYN_subn (op : BitVec 4) (x y : Reg) :
    decode8 (packXYN op x y 0x7#4) = .ok (.subn x y) := by simp [decode8]

@[simp] theorem decode8_packXYN_shl (op : BitVec 4) (x y : Reg) :
    decode8 (packXYN op x y 0xE#4) = .ok (.shl x y) := by simp [decode8]

end Sys2Proof

namespace Sys2Proof.Machine

/-! ### A result written to one register -/

/-- A register write changes that register alone (R20). -/
theorem unchanged_setReg (s : State) (x : Reg) (b : Byte) : Unchanged { regs := (· = x) } s (s.setReg x b) :=
  { Unchanged.refl {} s with regs := fun r hr => by rw [reg_setReg, if_neg hr] }

/-- An instruction that only writes `b` to register `x`. -/
theorem completes_setReg {i : Instr} {s : State} {x : Reg} {b : Byte} (h : exec i s = .next (s.setReg x b).advance) :
    ∃ t, exec i s = .next t ∧ t.reg x = b ∧ t.pc = s.pc + 2#16 ∧ Unchanged { regs := (· = x) } s t := by
  have hreg : (s.setReg x b).reg x = b := by rw [reg_setReg, if_pos rfl]
  exact ⟨_, h, hreg, rfl, (unchanged_setReg s x b).setPc _⟩

/-- An instruction that only writes to register `x` a result known bit by bit (R124, R125, R126). -/
theorem completes_setReg_bits {i : Instr} {s : State} {x : Reg} {b : Byte} {bit : Nat → Bool}
    (h : exec i s = .next (s.setReg x b).advance) (hbits : ∀ k, b.getLsbD k = bit k) :
    ∃ t, exec i s = .next t ∧ (∀ k, (t.reg x).getLsbD k = bit k) ∧ t.pc = s.pc + 2#16 ∧
      Unchanged { regs := (· = x) } s t := by
  obtain ⟨t, hexec, hreg, hpc, hframe⟩ := completes_setReg h
  exact ⟨t, hexec, fun k => by rw [hreg, hbits], hpc, hframe⟩

/-! ### A result and a flag -/

section
variable {s : State} {d : Reg} (r : Byte) (f : Bool)

/-- The result lands unless the flag is committed over it (R120). -/
theorem reg_commitFlagged_dest (h : d ≠ regF ∨ s.params.flagOrder = .flagThenResult) :
    (s.commitFlagged d r f).reg d = r := by
  rw [reg_commitFlagged]
  by_cases hd : d = regF
  · rw [if_pos hd, if_pos ⟨hd, h.resolve_left (not_not_intro hd)⟩]
  · rw [if_neg hd, if_pos rfl]

/-- The flag lands unless the result is committed over it (R120). -/
theorem reg_commitFlagged_flag (h : d ≠ regF ∨ s.params.flagOrder = .resultThenFlag) :
    (s.commitFlagged d r f).reg regF = flagByte f := by
  have hkept : ¬ (d = regF ∧ s.params.flagOrder = .flagThenResult) := by
    rintro ⟨hd, hresultLast⟩
    rw [hresultLast] at h
    exact h.elim (· hd) nofun
  rw [reg_commitFlagged, if_pos rfl, if_neg hkept]

theorem reg_commitFlagged_other {q : Reg} (hd : q ≠ d) (hF : q ≠ regF) :
    (s.commitFlagged d r f).reg q = s.reg q := by
  rw [reg_commitFlagged, if_neg hF, if_neg hd]

/-- A flagged commit changes its destination and VF alone. -/
theorem unchanged_commitFlagged : Unchanged { regs := fun q => q = d ∨ q = regF } s (s.commitFlagged d r f) := by
  have hregs : ∀ q, ¬ (q = d ∨ q = regF) → (s.commitFlagged d r f).reg q = s.reg q := fun q hq =>
    reg_commitFlagged_other r f (mt .inl hq) (mt .inr hq)
  rw [commitFlagged_eq]
  exact { Unchanged.refl {} s with regs := hregs }

end

/-- An instruction that only commits a result and a flag, both given as numbers (R120). -/
theorem completes_commitFlagged {i : Instr} {s : State} {d : Reg} {r : Byte} {f : Bool} {result flag : Nat}
    (h : exec i s = .next (s.commitFlagged d r f).advance) (hr : r.toNat = result)
    (hf : (flagByte f).toNat = flag) :
    ∃ t, exec i s = .next t ∧ t.pc = s.pc + 2#16 ∧
      (d ≠ regF ∨ s.params.flagOrder = .flagThenResult → (t.reg d).toNat = result) ∧
      (d ≠ regF ∨ s.params.flagOrder = .resultThenFlag → (t.reg regF).toNat = flag) ∧
      Unchanged { regs := fun q => q = d ∨ q = regF } s t := by
  refine ⟨_, h, ?pc, fun hd => ?result, fun hd => ?flag, (unchanged_commitFlagged r f).setPc _⟩
  case pc => rw [State.advance_pc, commitFlagged_eq]
  case result => rw [State.advance_reg, reg_commitFlagged_dest r f hd, hr]
  case flag => rw [State.advance_reg, reg_commitFlagged_flag r f hd, hf]

/-! ### Flags and results as numbers -/

theorem flagByte_toNat (f : Bool) : (flagByte f).toNat = f.toNat := by cases f <;> rfl

/-- The carry (R127). -/
theorem flagByte_carryFlag_toNat (a b : Byte) :
    (flagByte (carryFlag a b)).toNat = if a.toNat + b.toNat > 255 then 1 else 0 := by
  rw [flagByte_toNat, carryFlag]
  split
  case isTrue h => rw [decide_eq_true h, Bool.toNat_true]
  case isFalse h => rw [decide_eq_false h, Bool.toNat_false]

/-- The NOT borrow (R128). -/
theorem flagByte_notBorrowFlag_toNat (vx vy : Byte) :
    (flagByte (notBorrowFlag vx vy)).toNat = if vx.toNat > vy.toNat then 0 else 1 := by
  rw [flagByte_toNat, notBorrowFlag]
  split
  case isTrue h => rw [decide_eq_true h, Bool.not_true, Bool.toNat_false]
  case isFalse h => rw [decide_eq_false h, Bool.not_false, Bool.toNat_true]

/-- The bit shifted out to the right (R130). -/
theorem flagByte_shrFlag_toNat (a : Byte) : (flagByte (shrFlag a)).toNat = a.toNat % 2 := by
  rw [flagByte_toNat, shrFlag, ← BitVec.testBit_toNat, Nat.toNat_testBit, Nat.pow_zero, Nat.div_one]

/-- The bit shifted out to the left (R131): a byte is below 256, so its bit 7 is its quotient by 128. -/
theorem flagByte_shlFlag_toNat (a : Byte) : (flagByte (shlFlag a)).toNat = a.toNat / 128 := by
  have ha := a.isLt
  rw [flagByte_toNat, shlFlag, ← BitVec.testBit_toNat, Nat.toNat_testBit]
  omega

/-- The difference of two bytes, written without a negative intermediate value (R128). -/
theorem byte_sub_toNat (a b : Byte) : (a - b).toNat = (a.toNat + 256 - b.toNat) % 256 := by
  have hb := b.isLt
  rw [BitVec.toNat_sub]
  congr 1
  omega

theorem byte_shiftRight_one_toNat (a : Byte) : (a >>> 1).toNat = a.toNat / 2 := BitVec.toNat_ushiftRight a 1

theorem byte_shiftLeft_one_toNat (a : Byte) : (a <<< 1).toNat = a.toNat * 2 % 256 := by
  rw [BitVec.toNat_shiftLeft, Nat.shiftLeft_eq]

/-! ### The statements -/

/-- Settles O17: the sum and the carry, committed to VX. -/
theorem addWithCarry : Obligations.AddWithCarry :=
  fun x y => ⟨by simp, fun _ =>
    completes_commitFlagged rfl (BitVec.toNat_add _ _) (flagByte_carryFlag_toNat _ _)⟩

/-- Settles O18: the difference and the NOT borrow, committed to VY. -/
theorem subIntoVy : Obligations.SubIntoVy :=
  fun x y => ⟨by simp, fun _ =>
    completes_commitFlagged rfl (byte_sub_toNat _ _) (flagByte_notBorrowFlag_toNat _ _)⟩

/-- Settles O19: the difference and the NOT borrow of SUB, committed to VX. -/
theorem subnIntoVx : Obligations.SubnIntoVx :=
  fun x y => ⟨by simp, fun _ =>
    completes_commitFlagged rfl (byte_sub_toNat _ _) (flagByte_notBorrowFlag_toNat _ _)⟩

/-- Settles O20: half of VX and its bit 0, committed to VX; VY takes no part. -/
theorem shiftRight : Obligations.ShiftRight :=
  fun x y => ⟨by simp, fun _ =>
    completes_commitFlagged rfl (byte_shiftRight_one_toNat _) (flagByte_shrFlag_toNat _)⟩

/-- Settles O21: twice VX and its bit 7, committed to VX; VY takes no part. -/
theorem shiftLeft : Obligations.ShiftLeft :=
  fun x y => ⟨by simp, fun _ =>
    completes_commitFlagged rfl (byte_shiftLeft_one_toNat _) (flagByte_shlFlag_toNat _)⟩

/-- Settles O13: both forms write one register. -/
theorem loadRegister : Obligations.LoadRegister :=
  ⟨fun x nn => ⟨decode_packXNN_ldImm x nn, fun _ => completes_setReg rfl⟩,
    fun x y => ⟨by simp, fun _ => completes_setReg rfl⟩⟩

/-- Settles O14: the addition of bytes is modulo 256. -/
theorem addImmediateWraps : Obligations.AddImmediateWraps := by
  refine fun x nn => ⟨decode_packXNN_addImm x nn, fun s => ?_⟩
  obtain ⟨t, hexec, hreg, hpc, hframe⟩ := completes_setReg (i := .addImm x nn) (s := s) rfl
  exact ⟨t, hexec, by rw [hreg, BitVec.toNat_add], hpc, hframe⟩

/-- Settles O15: each operation of bytes is its Boolean operation on every bit. -/
theorem bitwiseLogic : Obligations.BitwiseLogic :=
  fun x y => ⟨by simp, by simp, by simp, fun _ =>
    ⟨completes_setReg_bits rfl fun _ => BitVec.getLsbD_or, completes_setReg_bits rfl fun _ => BitVec.getLsbD_and,
      completes_setReg_bits rfl fun _ => BitVec.getLsbD_xor⟩⟩

/-- Settles O16: the write that is committed last lands, and both land where the destination is not VF. -/
theorem flagCommitOrder : Obligations.FlagCommitOrder := by
  refine fun s d r f => ⟨fun hd => ⟨?result, ?flag⟩, fun hflagLast => ?flagLast, fun hresultLast => ?resultLast,
    fun q hd hF => ?other⟩
  case result => exact reg_commitFlagged_dest r f (.inl hd)
  case flag => exact reg_commitFlagged_flag r f (.inl hd)
  case flagLast => exact reg_commitFlagged_flag r f (.inr hflagLast)
  case resultLast => exact reg_commitFlagged_dest r f (.inr hresultLast)
  case other => exact reg_commitFlagged_other r f hd hF

end Sys2Proof.Machine

/-! ## Proofs: memory and index. What decoding gives for the words of LD I and the FX group, the frames of I and of
stores and loads at the data addresses, the arms by their checks, and the six statements (42_memory_index.md). -/

namespace Sys2Proof

@[simp] theorem decode_packNNN_ldI (nnn : Addr12) : decode (packNNN 0xA#4 nnn) = .ok (.ldI nnn) := by simp [decode]

/-- The words of major opcode 0xF: the function byte selects (R73). -/
@[simp] theorem decode_packXNN_opF (x : Reg) (fb : Byte) :
    decode (packXNN 0xF#4 x fb) = decodeF (packXNN 0xF#4 x fb) := by simp [decode]

@[simp] theorem decodeF_packXNN_addI (op : BitVec 4) (x : Reg) :
    decodeF (packXNN op x 0x1E#8) = .ok (.addI x) := by simp [decodeF]

@[simp] theorem decodeF_packXNN_ldF (op : BitVec 4) (x : Reg) :
    decodeF (packXNN op x 0x29#8) = .ok (.ldF x) := by simp [decodeF]

@[simp] theorem decodeF_packXNN_ldB (op : BitVec 4) (x : Reg) :
    decodeF (packXNN op x 0x33#8) = .ok (.ldB x) := by simp [decodeF]

@[simp] theorem decodeF_packXNN_ldMemVx (op : BitVec 4) (x : Reg) :
    decodeF (packXNN op x 0x55#8) = .ok (.ldMemVx x) := by simp [decodeF]

@[simp] theorem decodeF_packXNN_ldVxMem (op : BitVec 4) (x : Reg) :
    decodeF (packXNN op x 0x65#8) = .ok (.ldVxMem x) := by simp [decodeF]

end Sys2Proof

namespace Sys2Proof.Machine

/-! ### A value written to I -/

/-- A write to I adds I to a frame (R23). -/
theorem Unchanged.setI {f : Footprint} {s t : State} (h : Unchanged f s t) (w : Word) :
    Unchanged { f with index := True } s (t.setI w) :=
  { h with index := fun hi => absurd trivial hi }

/-- An instruction that only writes to I a value given as a number. -/
theorem completes_setI {i : Instr} {s : State} {w : Word} {n : Nat} (h : exec i s = .next (s.setI w).advance)
    (hw : w.toNat = n) :
    ∃ t, exec i s = .next t ∧ t.i.toNat = n ∧ t.pc = s.pc + 2#16 ∧ Unchanged { index := True } s t :=
  ⟨_, h, hw, rfl, ((Unchanged.refl {} s).setI w).setPc _⟩

/-- Five times a byte fits in 16 bits (R142). -/
theorem glyphAddr_toNat (b : Byte) : (glyphAddr b).toNat = b.toNat * 5 := by
  have hb := b.isLt
  exact (BitVec.toNat_ofNat _ _).trans (Nat.mod_eq_of_lt (by unfold glyphBytes; omega))

theorem flagByte_decide_toNat (p : Prop) [Decidable p] : (flagByte (decide p)).toNat = if p then 1 else 0 := by
  rw [flagByte_toNat]
  split
  case isTrue h => rw [decide_eq_true h, Bool.toNat_true]
  case isFalse h => rw [decide_eq_false h, Bool.toNat_false]

/-- The flag of ADD I, Vx (R141). -/
theorem flagByte_indexFlag_toNat (i : Word) (b : Byte) :
    (flagByte (indexFlag i b)).toNat = if i.toNat + b.toNat > 0xFFF then 1 else 0 :=
  flagByte_decide_toNat _

/-- I after FX55 or FX65 (R144, R145). -/
theorem indexAfter_regCount_toNat (s : State) (x : Reg) :
    (s.indexAfter (regCount x)).toNat = (s.i.toNat + x.toNat + 1) % 65536 := by
  rw [State.indexAfter, BitVec.toNat_add, BitVec.toNat_ofNat, Nat.add_mod_mod]
  rfl

/-! ### Bytes at the data addresses -/

section
variable {s : State} {bs : List Byte} (hwf : s.mem.wf = true) (hfit : s.dataAddr bs.length ≤ memSize)
include hwf hfit

/-- A store at the data addresses puts byte `k` at `I + k` (R55, R146). -/
theorem byteAt_storeBytes_dataAddr {k : Nat} (hk : k < bs.length) :
    (s.storeBytes (s.dataAddr 0) bs).byteAt (s.dataAddr k) = bs.getD k 0 := by
  rw [byteAt_storeBytes s (s.dataAddr 0) _ bs hfit hwf, if_pos (by unfold State.dataAddr; omega)]
  exact congrArg (bs.getD · 0) (Nat.add_sub_cancel_left s.i.toNat k)

/-- A store at the data addresses changes the bytes there alone. -/
theorem unchanged_storeBytes_dataAddr {P : Nat → Prop} (hP : ∀ k, k < bs.length → P (s.dataAddr k)) :
    Unchanged { bytes := P } s (s.storeBytes (s.dataAddr 0) bs) :=
  { Unchanged.refl {} s with
    bytes := fun a ha => by
      rw [byteAt_storeBytes s (s.dataAddr 0) _ bs hfit hwf, if_neg]
      rintro ⟨hle, hlt⟩
      obtain ⟨k, rfl⟩ := Nat.exists_eq_add_of_le hle
      exact ha (hP k (Nat.lt_of_add_lt_add_left hlt)) }

end

/-- A load of registers changes as many of the first ones as there are bytes (R145). -/
theorem unchanged_loadRegs {s : State} {bs : List Byte} {P : Reg → Prop}
    (hP : ∀ r : Reg, r.toNat < bs.length → P r) :
    Unchanged { regs := P } s (s.loadRegs bs) :=
  { Unchanged.refl {} s with regs := fun r hr => by rw [reg_loadRegs, if_neg (mt (hP r) hr)] }

/-- Register `r` loaded from the data addresses gets the byte at `I + r` (R145). -/
theorem reg_loadRegs_dataAddrs (s : State) {n : Nat} {r : Reg} (hr : r.toNat < n) :
    (s.loadRegs ((s.dataAddrs n).map s.byteAt)).reg r = s.byteAt (s.dataAddr r.toNat) := by
  rw [reg_loadRegs, if_pos (by simpa using hr)]
  simp [State.dataAddrs, List.getD_eq_getElem?_getD, hr]

/-- The stored digits as numbers, each below 256 (R143). -/
theorem bcdDigits_toNat (b : Byte) :
    ((bcdDigits b).getD 0 0).toNat = b.toNat / 100 ∧ ((bcdDigits b).getD 1 0).toNat = b.toNat / 10 % 10 ∧
      ((bcdDigits b).getD 2 0).toNat = b.toNat % 10 := by
  have hb := b.isLt
  simp only [bcdDigits, List.getD_cons_zero, List.getD_cons_succ, BitVec.toNat_ofNat]
  omega

/-! ### The arms of LD B, LD [I] and LD Vx, [I], by their checks -/

theorem exec_ldB_of_ok {s : State} {x : Reg} (h : s.checkWriteAll (s.dataAddrs 3) = .ok ()) :
    exec (.ldB x) s = .next (s.storeBytes (s.dataAddr 0) (bcdDigits (s.reg x))).advance := by
  rw [exec, execLdB, h]
  rfl

theorem exec_ldB_of_error {s : State} {x : Reg} {c : FaultCause}
    (h : s.checkWriteAll (s.dataAddrs 3) = .error c) :
    exec (.ldB x) s = s.complete (encode (.ldB x)) (.error c) := by
  rw [exec, execLdB, h]

theorem exec_ldMemVx_of_ok {s : State} {x : Reg} (h : s.checkWriteAll (s.dataAddrs (regCount x)) = .ok ()) :
    exec (.ldMemVx x) s = .next
      ((s.storeBytes (s.dataAddr 0) (s.regBytes (regCount x))).setI (s.indexAfter (regCount x))).advance := by
  rw [exec, execLdMemVx, h]
  rfl

theorem exec_ldMemVx_of_error {s : State} {x : Reg} {c : FaultCause}
    (h : s.checkWriteAll (s.dataAddrs (regCount x)) = .error c) :
    exec (.ldMemVx x) s = s.complete (encode (.ldMemVx x)) (.error c) := by
  rw [exec, execLdMemVx, h]

theorem exec_ldVxMem_of_ok {s : State} {x : Reg} {bs : List Byte}
    (h : s.memReadAll (s.dataAddrs (regCount x)) = .ok bs) :
    exec (.ldVxMem x) s = .next ((s.loadRegs bs).setI (s.indexAfter (regCount x))).advance := by
  rw [exec, execLdVxMem, h]
  rfl

theorem exec_ldVxMem_of_error {s : State} {x : Reg} {c : FaultCause}
    (h : s.memReadAll (s.dataAddrs (regCount x)) = .error c) :
    exec (.ldVxMem x) s = s.complete (encode (.ldVxMem x)) (.error c) := by
  rw [exec, execLdVxMem, h]

/-! ### The statements -/

/-- Settles O26: the digits of VX stored at the data addresses, where all three are writable; else the fault of the
first that is not. -/
theorem storeDecimal : Obligations.StoreDecimal := by
  refine fun x => ⟨by simp, fun s hwf hfit hfont => ?stores, fun s hoob => ?oob, fun s hlow hfont => ?font⟩
  case stores =>
    have hend : s.dataAddr (bcdDigits (s.reg x)).length ≤ memSize := Nat.succ_le_succ hfit
    have hbyte : ∀ k < 3, (s.storeBytes (s.dataAddr 0) (bcdDigits (s.reg x))).byteAt (s.dataAddr k) =
        (bcdDigits (s.reg x)).getD k 0 := fun k hk => byteAt_storeBytes_dataAddr hwf hend hk
    obtain ⟨hundreds, tens, ones⟩ := bcdDigits_toNat (s.reg x)
    refine ⟨_, exec_ldB_of_ok (checkWriteAll_dataAddrs_ok s 3 hend hfont), ?_, ?_, ?_, rfl,
      (unchanged_storeBytes_dataAddr hwf hend fun k hk => ?_).setPc _⟩
    · rw [State.advance_byteAt, hbyte 0 (by decide), hundreds]
    · rw [State.advance_byteAt, hbyte 1 (by decide), tens]
    · rw [State.advance_byteAt, hbyte 2 (by decide), ones]
    · exact ⟨Nat.le_add_right _ k, Nat.add_lt_add_left hk _⟩
  case oob =>
    have habove : 0x4F < s.i.toNat := by unfold State.dataAddr at hoob; omega
    exact takesFault_of_complete (exec_ldB_of_error
      (checkWriteAll_dataAddrs_oob s 3 (Nat.succ_lt_succ hoob) (by decide) (.inl habove)))
  case font =>
    exact takesFault_of_complete (exec_ldB_of_error (checkWriteAll_dataAddrs_font s 3 (by decide) hlow hfont))

/-- Settles O27: V0 to VX stored at the data addresses, where all of them are writable; else the fault of the first
that is not. -/
theorem storeRegisters : Obligations.StoreRegisters := by
  refine fun x => ⟨by simp, fun s hwf hfit hfont => ?stores, fun s hoob hfont => ?oob, fun s hlow hfont => ?font⟩
  case stores =>
    have hend : s.dataAddr (regCount x) ≤ memSize := Nat.succ_le_succ hfit
    have hlen : s.dataAddr (s.regBytes (regCount x)).length ≤ memSize := by rwa [length_regBytes]
    refine ⟨_, exec_ldMemVx_of_ok (checkWriteAll_dataAddrs_ok s _ hend hfont), fun r hr => ?_,
      indexAfter_regCount_toNat s x, rfl,
      ((unchanged_storeBytes_dataAddr hwf hlen fun k hk => ?_).setI _).setPc _⟩
    · have hcount : r.toNat < regCount x := Nat.lt_succ_of_le hr
      rw [State.advance_byteAt, State.setI_byteAt,
        byteAt_storeBytes_dataAddr hwf hlen (by rwa [length_regBytes]), regBytes_getD s _ r hcount]
    · rw [length_regBytes] at hk
      exact ⟨Nat.le_add_right _ k, Nat.add_le_add_left (Nat.le_of_lt_succ hk) _⟩
  case oob =>
    exact takesFault_of_complete (exec_ldMemVx_of_error
      (checkWriteAll_dataAddrs_oob s _ (Nat.succ_lt_succ hoob) (Nat.succ_pos _) hfont))
  case font =>
    exact takesFault_of_complete (exec_ldMemVx_of_error
      (checkWriteAll_dataAddrs_font s _ (Nat.succ_pos _) hlow hfont))

/-- Settles O28: V0 to VX loaded from the data addresses, where all of them are in memory; else the fault of the first
that is not. -/
theorem loadRegisters : Obligations.LoadRegisters := by
  refine fun x => ⟨by simp, fun s hfit => ?loads, fun s hoob => ?oob⟩
  case loads =>
    refine ⟨_, exec_ldVxMem_of_ok (memReadAll_dataAddrs_ok s _ (Nat.succ_le_succ hfit)), fun r hr => ?_,
      indexAfter_regCount_toNat s x, rfl, ((unchanged_loadRegs fun r hr => ?_).setI _).setPc _⟩
    · exact reg_loadRegs_dataAddrs s (Nat.lt_succ_of_le hr)
    · rw [List.length_map, length_dataAddrs] at hr
      exact Nat.le_of_lt_succ hr
  case oob =>
    exact takesFault_of_complete (exec_ldVxMem_of_error
      (memReadAll_dataAddrs_oob s _ (Nat.succ_lt_succ hoob) (Nat.succ_pos _)))

/-- Settles O23: a 12-bit address zero-extended. -/
theorem loadIndex : Obligations.LoadIndex :=
  fun nnn => ⟨decode_packNNN_ldI nnn, fun _ => completes_setI rfl (zextAddr_toNat nnn)⟩

/-- Settles O24: VF gets the flag of the exact sum, then I the sum at 16 bits, both from the old VX. -/
theorem addIndex : Obligations.AddIndex := by
  refine fun x => ⟨by simp, fun s => ⟨_, rfl, ?sum, ?flag, rfl, ((unchanged_setReg s regF _).setI _).setPc _⟩⟩
  case sum => exact (BitVec.toNat_add _ _).trans (by rw [zextByte_toNat])
  case flag =>
    rw [State.advance_reg, State.setI_reg, setFlag_eq, reg_setReg, if_pos rfl, flagByte_indexFlag_toNat]

/-- Settles O25: five times any byte fits in I. -/
theorem fontAddress : Obligations.FontAddress :=
  fun x => ⟨by simp, fun _ => completes_setI rfl (glyphAddr_toNat _)⟩

end Sys2Proof.Machine

/-! ## Proofs: display. What decoding gives for the words of DRW, the hits and the first fault of a sprite, the frame of
a draw, the arm by its hits, and the statement (43_display.md). -/

namespace Sys2Proof

@[simp] theorem decode_packXYN_drw (x y : Reg) (n : Count) : decode (packXYN 0xD#4 x y n) = .ok (.drw x y n) := by
  simp [decode]

end Sys2Proof

namespace Sys2Proof.Machine

/-! ### Cells and the flag -/

/-- A cell is on when it is not 0 (R29). -/
@[simp] theorem cellOn_iff (c : Byte) : cellOn c = true ↔ c ≠ 0x00#8 := by simp [cellOn]

/-- A toggled cell holds 1 exactly when it was 0 (R150). -/
theorem cellToggled_eq (c : Byte) : cellToggled c = if c = 0x00#8 then 0x01#8 else 0x00#8 := by
  rw [cellToggled, if_congr (cellOn_iff c) rfl rfl, ite_not]

theorem flagByte_eq_one_iff (f : Bool) : flagByte f = 0x01#8 ↔ f = true := by cases f <;> decide

theorem flagByte_one_or_zero (f : Bool) : flagByte f = 0x01#8 ∨ flagByte f = 0x00#8 := by cases f <;> decide

/-- VF after a flag is written (R21). -/
theorem reg_setFlag_regF (s : State) (f : Bool) : (s.setFlag f).reg regF = flagByte f := by
  rw [setFlag_eq, reg_setReg, if_pos rfl]

/-! ### The frame of a draw -/

/-- Toggling cells changes those cells alone (R150). -/
theorem unchanged_toggleHits {f : Footprint} (s : State) {hits : List Pixel} (hf : ∀ p ∈ hits, f.cells p) :
    Unchanged f s { s with display := toggleHits s.display hits } :=
  { Unchanged.refl f s with cells := fun p hp => by rw [cell_toggleHits, if_neg (mt (hf p) hp)] }

/-- A write to VF keeps a frame that VF stands in. -/
theorem Unchanged.setFlag {f : Footprint} {s t : State} (h : Unchanged f s t) (hf : f.regs regF) (b : Bool) :
    Unchanged f s (t.setFlag b) :=
  { h with
    regs := fun r hr => by
      have hne : r ≠ regF := fun hF => hr (hF ▸ hf)
      rw [setFlag_eq, reg_setReg, if_neg hne, h.regs r hr] }

/-! ### The faults of a sprite -/

/-- An unreadable sprite has rows, and its first address above 0xFFF names the fault (R58, R150). -/
theorem spriteHits_of_not_readable {s : State} {n : Count} (x y : Reg) (h : ¬ s.SpriteReadable n) :
    s.spriteHits x y n = .error ⟨.memReadOob, some (max (s.dataAddr 0) 0x1000)⟩ := by
  rw [spriteReadable_iff, not_or] at h
  obtain ⟨hoob, hrows⟩ := h
  rw [State.spriteHits, memReadAll_dataAddrs_oob s _ (Nat.lt_of_not_le hoob) (Nat.pos_of_ne_zero hrows)]
  rfl

/-- A pixel of exact coordinates on the display never faults (R151). -/
theorem place_ne_off {pol : DrawEdgePolicy} {xs ys : Nat} (hx : xs ≤ 63) (hy : ys ≤ 31) (index : Nat) :
    place pol xs ys ≠ .off index := fun h => by
  obtain ⟨-, hoff, -⟩ := place_off h
  omega

/-- Where an off-display pixel faults, the first set bit off the display, row by row and left to right, names the fault
(R151, R207): the pixels before it are those of earlier rows and of columns further left. -/
theorem spriteHits_of_first_off {s : State} {x y : Reg} {n : Count} {r c : Nat} (hread : s.SpriteReadable n)
    (hpol : s.params.drawEdge = .fault) (hr : r < n.toNat) (hc : c < 8) (hset : s.spriteSet r c)
    (hoff : s.spriteX x c > 63 ∨ s.spriteY y r > 31)
    (hfirst : ∀ r' c', r' < n.toNat → c' < 8 → s.spriteSet r' c' → (r' < r ∨ r' = r ∧ c' < c) →
      s.spriteX x c' ≤ 63 ∧ s.spriteY y r' ≤ 31) :
    s.spriteHits x y n = .error ⟨.displayOob, some (s.spriteY y r * 64 + s.spriteX x c)⟩ := by
  have hlen : ((s.dataAddrs n.toNat).map s.byteAt).length = n.toNat := by rw [List.length_map, length_dataAddrs]
  obtain ⟨before, after, hsplit, hbefore⟩ := spritePixels_split (s.reg x).toNat
    ((s.dataAddrs n.toNat).map s.byteAt) (s.reg y).toNat r c (hlen.symm ▸ hr) hc
    (by rwa [spriteRow_getD s n r hr])
  have hplaced : ∀ q ∈ before, ∀ index, place s.params.drawEdge q.1 q.2 ≠ .off index := by
    intro q hq
    obtain ⟨r', c', hr', hc', hset', hearlier, rfl⟩ := hbefore q hq
    rw [hlen] at hr'
    rw [spriteRow_getD s n r' hr'] at hset'
    obtain ⟨hx, hy⟩ := hfirst r' c' hr' hc' hset' hearlier
    exact place_ne_off hx hy
  have hthis : place s.params.drawEdge (s.spriteX x c) (s.spriteY y r) =
      .off (s.spriteY y r * 64 + s.spriteX x c) := by
    rw [hpol]
    exact if_pos hoff
  rw [State.spriteHits, memReadAll_of_readable s n hread]
  exact (congrArg (placeAll _) hsplit).trans (placeAll_error _ _ before _ after hplaced hthis)

/-! ### The arm of DRW, by the sprite's hits -/

theorem exec_drw_of_ok {s : State} {x y : Reg} {n : Count} {hits : List Pixel} (h : s.spriteHits x y n = .ok hits) :
    exec (.drw x y n) s = .next
      ({ s with display := toggleHits s.display hits }.setFlag (collisionFlag s.display hits)).advance := by
  rw [exec, execDrw, h]
  rfl

theorem exec_drw_of_error {s : State} {x y : Reg} {n : Count} {c : FaultCause} (h : s.spriteHits x y n = .error c) :
    exec (.drw x y n) s = s.complete (encode (.drw x y n)) (.error c) := by
  rw [exec, execDrw, h]

/-! ### The statement -/

/-- Settles O29: the hits of a readable, placeable sprite are toggled and their old values give VF; else the fault of
the first row address out of memory, or of the first set bit off the display. -/
theorem drawSprite : Obligations.DrawSprite := by
  refine fun x y n => ⟨decode_packXYN_drw x y n, fun s hread hplace => ?draws, fun s hread => ?unreadable,
    fun s r c hread hpol hr hc hset hoff hfirst => ?offDisplay⟩
  case draws =>
    obtain ⟨hits, hok, hmem⟩ := spriteHits_ok s x y n hread hplace
    refine ⟨_, exec_drw_of_ok hok, fun p hp => ?toggled, ?flagBit, ?collision, rfl,
      ((unchanged_toggleHits s fun p => (hmem p).1).setFlag rfl _).setPc _⟩
    case toggled =>
      exact (cell_toggleHits s.display hits p).trans ((if_pos ((hmem p).2 hp)).trans (cellToggled_eq _))
    case flagBit =>
      rw [State.advance_reg, reg_setFlag_regF]
      exact flagByte_one_or_zero _
    case collision =>
      simp only [State.advance_reg, reg_setFlag_regF, flagByte_eq_one_iff, collisionFlag_iff, hmem, cellOn_iff]
  case unreadable => exact takesFault_of_complete (exec_drw_of_error (spriteHits_of_not_readable x y hread))
  case offDisplay =>
    exact takesFault_of_complete (exec_drw_of_error (spriteHits_of_first_off hread hpol hr hc hset hoff hfirst))

end Sys2Proof.Machine

/-! ## Proofs: input. What decoding gives for the words of SKP, SKNP and LD Vx, K, the key that the wait takes, the arms
by their checks, and the two statements (44_input.md). -/

namespace Sys2Proof

/-- The words of major opcode 0xE: the function byte selects (R73). -/
@[simp] theorem decode_packXNN_opE (x : Reg) (fb : Byte) :
    decode (packXNN 0xE#4 x fb) = decodeE (packXNN 0xE#4 x fb) := by simp [decode]

@[simp] theorem decodeE_packXNN_skp (op : BitVec 4) (x : Reg) :
    decodeE (packXNN op x 0x9E#8) = .ok (.skp x) := by simp [decodeE]

@[simp] theorem decodeE_packXNN_sknp (op : BitVec 4) (x : Reg) :
    decodeE (packXNN op x 0xA1#8) = .ok (.sknp x) := by simp [decodeE]

@[simp] theorem decodeF_packXNN_ldVxK (op : BitVec 4) (x : Reg) :
    decodeF (packXNN op x 0x0A#8) = .ok (.ldVxK x) := by simp [decodeF]

end Sys2Proof

namespace Sys2Proof.Machine

/-! ### The key that the wait takes -/

/-- A pressed key with no pressed key between it and `n` is the highest below `n` (R162): a search that finds nothing
denies the key itself, and one that finds a key finds neither a lower nor a higher one. -/
theorem highestKeyBelow_of_highest {s : State} {n k : Nat} (hk : k < n) (hdown : s.keyDown k = true)
    (habove : ∀ j, k < j → j < n → s.keyDown j = false) : s.highestKeyBelow n = some k := by
  cases hfound : s.highestKeyBelow n with
  | none => exact absurd hdown (Bool.eq_false_iff.1 ((highestKeyBelow_none s n).1 hfound k hk))
  | some m =>
    obtain ⟨hm, hmDown, hmAbove⟩ := highestKeyBelow_some s n m hfound
    obtain hlt | rfl | hgt := Nat.lt_trichotomy m k
    · exact absurd hdown (Bool.eq_false_iff.1 (hmAbove k hlt hk))
    · rfl
    · exact absurd hmDown (Bool.eq_false_iff.1 (habove m hgt hm))

/-! ### The arms of SKP and SKNP, by the check of the key index -/

theorem keyIndex_of_le {s : State} {x : Reg} (h : (s.reg x).toNat ≤ 15) : s.keyIndex x = .ok (s.reg x).toNat :=
  if_neg (Nat.not_lt.2 h)

theorem keyIndex_of_gt {s : State} {x : Reg} (h : (s.reg x).toNat > 15) :
    s.keyIndex x = .error ⟨.keyIndexOob, some (s.reg x).toNat⟩ :=
  if_pos h

theorem exec_skp_of_le {s : State} {x : Reg} (h : (s.reg x).toNat ≤ 15) :
    exec (.skp x) s = .next (s.skipIf (s.keyDown (s.reg x).toNat)) := by
  rw [exec, execSkp, keyIndex_of_le h]
  rfl

theorem exec_skp_of_gt {s : State} {x : Reg} (h : (s.reg x).toNat > 15) :
    exec (.skp x) s = s.complete (encode (.skp x)) (.error ⟨.keyIndexOob, some (s.reg x).toNat⟩) := by
  rw [exec, execSkp, keyIndex_of_gt h]

theorem exec_sknp_of_le {s : State} {x : Reg} (h : (s.reg x).toNat ≤ 15) :
    exec (.sknp x) s = .next (s.skipIf (!s.keyDown (s.reg x).toNat)) := by
  rw [exec, execSknp, keyIndex_of_le h]
  rfl

theorem exec_sknp_of_gt {s : State} {x : Reg} (h : (s.reg x).toNat > 15) :
    exec (.sknp x) s = s.complete (encode (.sknp x)) (.error ⟨.keyIndexOob, some (s.reg x).toNat⟩) := by
  rw [exec, execSknp, keyIndex_of_gt h]

/-- A skip instruction that is taken when `b` is off (R161): 2 further when `b` holds and 4 otherwise. -/
theorem completes_skipIf_not {i : Instr} {s : State} {b : Bool} (h : exec i s = .next (s.skipIf (!b))) :
    ∃ t, exec i s = .next t ∧ t.pc = (if b then s.pc + 2#16 else s.pc + 4#16) ∧ Unchanged {} s t := by
  have htaken : (!b) = true ↔ ¬ b = true := by rw [Bool.not_eq_true', Bool.not_eq_true]
  obtain ⟨t, hexec, hpc, hframe⟩ := completes_skipIf h htaken
  exact ⟨t, hexec, by rw [hpc, ite_not], hframe⟩

/-! ### The arm of LD Vx, K, by the keys -/

theorem exec_ldVxK_of_none {s : State} {x : Reg} (h : s.highestKeyBelow numKeys = none) :
    exec (.ldVxK x) s = .next s := by
  rw [exec, execLdVxK, h]

theorem exec_ldVxK_of_some {s : State} {x : Reg} {k : Nat} (h : s.highestKeyBelow numKeys = some k) :
    exec (.ldVxK x) s = .next (s.setReg x (BitVec.ofNat 8 k)).advance := by
  rw [exec, execLdVxK, h]

/-! ### The statements -/

/-- Settles O31, by the check of the key index: both skip on the key that the value of VX names, or take its fault. -/
theorem skipOnKey : Obligations.SkipOnKey := by
  refine fun x => ⟨by simp, by simp, fun s hkey => ⟨?skp, ?sknp⟩, fun s hoob => ⟨?skpOob, ?sknpOob⟩⟩
  case skp => exact completes_skipIf (exec_skp_of_le hkey) Iff.rfl
  case sknp => exact completes_skipIf_not (exec_sknp_of_le hkey)
  case skpOob => exact takesFault_of_complete (exec_skp_of_gt hoob)
  case sknpOob => exact takesFault_of_complete (exec_sknp_of_gt hoob)

/-- Settles O32, by the search for the highest pressed key; a key index fits in a byte. -/
theorem waitForKey : Obligations.WaitForKey := by
  refine fun x => ⟨by simp, fun s hnone => ?waits, fun s k hk hdown habove => ?takes⟩
  case waits => exact exec_ldVxK_of_none ((highestKeyBelow_none s _).2 hnone)
  case takes =>
    obtain ⟨t, hexec, hreg, hpc, hframe⟩ :=
      completes_setReg (exec_ldVxK_of_some (x := x) (highestKeyBelow_of_highest hk hdown habove))
    have hbyte : (BitVec.ofNat 8 k).toNat = k := Nat.mod_eq_of_lt (by omega)
    exact ⟨t, hexec, by rw [hreg, hbyte], hpc, hframe⟩

end Sys2Proof.Machine

/-! ## Proofs: timers. What decoding gives for the word of LD Vx, DT, and its statement (45_timers.md). -/

namespace Sys2Proof

@[simp] theorem decodeF_packXNN_ldVxDt (op : BitVec 4) (x : Reg) :
    decodeF (packXNN op x 0x07#8) = .ok (.ldVxDt x) := by simp [decodeF]

end Sys2Proof

namespace Sys2Proof.Machine

/-- Settles O33: one register gets DT, which the instruction itself does not tick. -/
theorem readDelay : Obligations.ReadDelay :=
  fun x => ⟨by simp, fun _ => completes_setReg (x := x) rfl⟩

end Sys2Proof.Machine

/-! ## Proofs: exceptions. What a step that faults has done, and what the tick makes of the state an instruction left
without a fault (60_exceptions.md sections 1 and 5). -/

namespace Sys2Proof.Machine

/-! ### Faults -/

/-- The end of a step neither raises nor clears a fault (R200). -/
theorem endStep_fault (s : State) : s.endStep.fault = s.fault := by
  cases hf : s.fault with
  | none => rw [endStep_of_running s hf, State.tick_fault, hf]
  | some r => rw [endStep_of_faulted s r hf, hf]

/-- An instruction that leaves a fault where there was none has taken one, and done nothing else (R10, R203). -/
theorem exec_eq_takeFault {i : Instr} {s t : State} {r : FaultRecord} (hrun : s.fault = none)
    (hexec : exec i s = .next t) (hr : t.fault = some r) : ∃ c, t = s.takeFault c (some (encode i)) := by
  obtain ⟨hkept, -⟩ | htaken := exec_next_cases hexec
  · rw [hkept, hrun] at hr; cases hr
  · exact htaken

/-- Whatever raises it, the fetch, the decoder or the instruction, a step's fault is taken from the state before the
step (R203). -/
theorem step_eq_takeFault {s t : State} {r : FaultRecord} (hstep : step s = .next t) (hr : t.fault = some r) :
    ∃ c w, t = s.clearOutputs.takeFault c w := by
  obtain ⟨hrun, ⟨c, -, ht⟩ | ⟨w, -, -, ht⟩ | ⟨w, i, u, -, hexec, ht⟩⟩ := step_next_cases hstep
  · exact ⟨_, _, ht⟩
  · exact ⟨_, _, ht⟩
  · have hu : u.fault = some r := by rw [← hr, ht, endStep_fault]
    obtain ⟨c, htaken⟩ := exec_eq_takeFault (s := s.clearOutputs) hrun hexec hu
    exact ⟨c, _, by rw [ht, endStep_of_faulted u r hu, htaken]⟩

/-- Settles O39: the state a step's fault leaves is the one `State.takeFault` makes, for whichever cause and word. -/
theorem faultsArePrecise : Obligations.FaultsArePrecise := by
  intro s t r _ hstep hr
  obtain ⟨c, w, rfl⟩ := step_eq_takeFault hstep hr
  rw [← hr]
  rfl

/-! ### The tick -/

/-- No instruction raises BUZZER: only the tick does (R216). -/
theorem exec_buzzer_false {i : Instr} {s t : State} (hs : s.buzzer = false) (hexec : exec i s = .next t) :
    t.buzzer = false := by
  obtain ⟨-, hkept, -⟩ | ⟨c, rfl⟩ := exec_next_cases hexec
  · rw [hkept, hs]
  · rfl

/-- The tick raises BUZZER exactly at the sound timer's last count (R215, R216). -/
theorem tick_buzzer_iff {s : State} (hs : s.buzzer = false) : s.tick.buzzer = true ↔ s.st.toNat = 1 := by
  rw [State.tick_buzzer, hs, Bool.false_or, beq_iff_eq]
  exact BitVec.toNat_inj.symm

/-- Settles O43: the step is the instruction and then `State.tick`, which sees the timers and the BUZZER of 0 that the
instruction left; a fault taken skips the tick. -/
theorem tickAfterInstruction : Obligations.TickAfterInstruction := by
  refine ⟨fun s t w i hex hexec hrun => ?ticks, fun s t r _ hstep hr => ?faults⟩
  case ticks =>
    have hstep : step s = .next t.tick := by rw [step_of_executes hex hexec, endStep_of_running t hrun]
    have hbuzzer : t.buzzer = false := exec_buzzer_false s.clearOutputs_buzzer hexec
    exact ⟨t.tick, hstep, tickDown_toNat t.dt, tickDown_toNat t.st, tick_buzzer_iff hbuzzer, rfl⟩
  case faults =>
    obtain ⟨c, w, rfl⟩ := step_eq_takeFault hstep hr
    exact ⟨rfl, rfl, rfl⟩

end Sys2Proof.Machine

/-! ## Proofs: the decoder and the encoder. What decoding gives for the words left over by the families above, a word
put together again from its fields, the words that each selector rejects, and the four statements (30_encoding.md). -/

namespace Sys2Proof

@[simp] theorem decode_packXNN_rnd (x : Reg) (nn : Byte) : decode (packXNN 0xC#4 x nn) = .ok (.rnd x nn) := by
  simp [decode]

@[simp] theorem decodeF_packXNN_ldDtVx (op : BitVec 4) (x : Reg) :
    decodeF (packXNN op x 0x15#8) = .ok (.ldDtVx x) := by simp [decodeF]

@[simp] theorem decodeF_packXNN_ldStVx (op : BitVec 4) (x : Reg) :
    decodeF (packXNN op x 0x18#8) = .ok (.ldStVx x) := by simp [decodeF]

/-- Settles O1: each arm of the encoder packs the fields that the decoder reads; of SYS the two excluded operands are
the words of CLS and RET. -/
theorem decodeOfEncode : Obligations.DecodeOfEncode := by
  intro i hwf
  cases i
  case sys nnn =>
    obtain ⟨hcls, hret⟩ : nnn ≠ 0x0E0#12 ∧ nnn ≠ 0x0EE#12 := by simpa [Instr.wf] using hwf
    exact decode_packNNN_sys hcls hret
  case cls => decide
  case ret => decide
  all_goals simp [encode, decode_packXYN_seReg, decode_packXYN_sneReg]

/-! ### A word from its fields -/

section
variable {w : Word} {op : BitVec 4} (hop : fieldOp w = op)
include hop

theorem packNNN_of_fields : packNNN op (fieldNNN w) = w := hop ▸ packNNN_fields w

theorem packXNN_of_fields {nn : Byte} (hnn : fieldNN w = nn) : packXNN op (fieldX w) nn = w :=
  hop ▸ hnn ▸ packXNN_fields w

theorem packXYN_of_fields {n : BitVec 4} (hn : fieldN w = n) : packXYN op (fieldX w) (fieldY w) n = w :=
  hop ▸ hn ▸ packXYN_fields w

end

/-- The sixteenth major opcode is the one left over. -/
theorem eq_opF : ∀ op : BitVec 4, op ∉ [0x0#4, 0x1#4, 0x2#4, 0x3#4, 0x4#4, 0x5#4, 0x6#4, 0x7#4, 0x8#4, 0x9#4, 0xA#4,
    0xB#4, 0xC#4, 0xD#4, 0xE#4] → op = 0xF#4 := by decide

theorem encode_decode0 {w : Word} (hop : fieldOp w = 0x0#4) :
    encode (decode0 w) = w ∧ (decode0 w).wf = true := by
  unfold decode0
  split
  case isTrue hcls => exact ⟨hcls.symm, rfl⟩
  case isFalse hcls =>
    split
    case isTrue hret => exact ⟨hret.symm, rfl⟩
    case isFalse hret =>
      have hpack := packNNN_of_fields hop
      have hne : fieldNNN w ≠ 0x0E0#12 ∧ fieldNNN w ≠ 0x0EE#12 :=
        ⟨fun h => hcls (hpack ▸ h ▸ rfl), fun h => hret (hpack ▸ h ▸ rfl)⟩
      exact ⟨hpack, by simpa [Instr.wf] using hne⟩

theorem encode_of_decode8 {w : Word} {i : Instr} (hop : fieldOp w = 0x8#4) (h : decode8 w = .ok i) :
    encode i = w ∧ i.wf = true := by
  unfold decode8 at h
  split at h <;> cases h
  all_goals exact ⟨packXYN_of_fields hop ‹_›, rfl⟩

theorem encode_of_decodeE {w : Word} {i : Instr} (hop : fieldOp w = 0xE#4) (h : decodeE w = .ok i) :
    encode i = w ∧ i.wf = true := by
  unfold decodeE at h
  split at h <;> cases h
  all_goals exact ⟨packXNN_of_fields hop ‹_›, rfl⟩

theorem encode_of_decodeF {w : Word} {i : Instr} (hop : fieldOp w = 0xF#4) (h : decodeF w = .ok i) :
    encode i = w ∧ i.wf = true := by
  unfold decodeF at h
  split at h <;> cases h
  all_goals exact ⟨packXNN_of_fields hop ‹_›, rfl⟩

/-- Settles O2: each arm of the decoder keeps every field of its word, which packs them again. -/
theorem encodeOfDecode : Obligations.EncodeOfDecode := by
  intro w i h
  unfold decode at h
  split at h
  case h_1 hop => cases h; exact encode_decode0 hop
  case h_6 hop | h_10 hop =>
    split at h <;> cases h
    exact ⟨packXYN_of_fields hop ‹_›, rfl⟩
  case h_9 hop => exact encode_of_decode8 hop h
  case h_14 hop => cases h; exact ⟨packXYN_of_fields hop rfl, rfl⟩
  case h_15 hop => exact encode_of_decodeE hop h
  case h_16 => exact encode_of_decodeF (eq_opF _ (by simp_all)) h
  case h_2 hop | h_3 hop | h_11 hop | h_12 hop => cases h; exact ⟨packNNN_of_fields hop, rfl⟩
  case h_4 hop | h_5 hop | h_7 hop | h_8 hop | h_13 hop => cases h; exact ⟨packXNN_of_fields hop rfl, rfl⟩

/-! ### Unknown words -/

/-- The function nibbles that major opcode 0x8 does not name are the seven of R75. -/
theorem mem_unnamed_op8 : ∀ n : BitVec 4, n ∉ [0x0#4, 0x1#4, 0x2#4, 0x3#4, 0x4#4, 0x5#4, 0x6#4, 0x7#4, 0xE#4] →
    n ∈ [0x8#4, 0x9#4, 0xA#4, 0xB#4, 0xC#4, 0xD#4, 0xF#4] := by decide

theorem decode8_rejects_iff (w : Word) : (∀ i, decode8 w ≠ .ok i) ↔
    fieldN w ∈ [0x8#4, 0x9#4, 0xA#4, 0xB#4, 0xC#4, 0xD#4, 0xF#4] := by
  unfold decode8
  split
  case h_10 => exact iff_of_true nofun (mem_unnamed_op8 _ (by simp_all))
  all_goals simp [*]

theorem decodeE_rejects_iff (w : Word) :
    (∀ i, decodeE w ≠ .ok i) ↔ fieldNN w ≠ 0x9E#8 ∧ fieldNN w ≠ 0xA1#8 := by
  unfold decodeE
  split
  case h_3 hskp hsknp => exact iff_of_true nofun ⟨hskp, hsknp⟩
  all_goals simp [*]

theorem decodeF_rejects_iff (w : Word) : (∀ i, decodeF w ≠ .ok i) ↔
    fieldNN w ∉ [0x07#8, 0x0A#8, 0x15#8, 0x18#8, 0x1E#8, 0x29#8, 0x33#8, 0x55#8, 0x65#8] := by
  unfold decodeF
  split
  case h_10 => exact iff_of_true nofun (by simp_all)
  all_goals simp [*]

/-- The words that no arm of the decoder reads: only the families 5, 8, 9, E and F have any (R75). -/
theorem decode_rejects_iff (w : Word) : (∀ i, decode w ≠ .ok i) ↔
    (fieldOp w = 0x5#4 ∧ fieldN w ≠ 0x0#4) ∨ (fieldOp w = 0x8#4 ∧ ∀ i, decode8 w ≠ .ok i) ∨
    (fieldOp w = 0x9#4 ∧ fieldN w ≠ 0x0#4) ∨ (fieldOp w = 0xE#4 ∧ ∀ i, decodeE w ≠ .ok i) ∨
    (fieldOp w = 0xF#4 ∧ ∀ i, decodeF w ≠ .ok i) := by
  unfold decode
  split
  case h_6 => split <;> simp [*]
  case h_10 => split <;> simp [*]
  case h_16 =>
    have hop : fieldOp w = 0xF#4 := eq_opF _ (by simp_all)
    simp [hop]
  all_goals simp [*]

end Sys2Proof

namespace Sys2Proof.Machine

/-- A step that fetches an unknown word takes UNKNOWN_INSTRUCTION (R75, R200). -/
theorem step_of_unknown {s : State} {w : Word} (hrun : s.fault = none) (hfetch : s.fetch = .ok w)
    (hw : ∀ i, decode w ≠ .ok i) : step s = .next (s.takeFault ⟨.unknownInstruction, none⟩ (some w)) := by
  have hcleared : s.clearOutputs.fetch = .ok w := hfetch
  rw [step, hrun]
  simp only [State.runStep, hcleared, State.runWord]
  cases hd : decode w with
  | ok i => exact absurd hd (hw i)
  | error e => rfl

/-- Settles O3: the words each selector rejects, and `step_of_unknown`. -/
theorem unknownWordsExactly : Obligations.UnknownWordsExactly := by
  refine ⟨fun w => ?_, fun s w => step_of_unknown⟩
  rw [decode_rejects_iff, decode8_rejects_iff, decodeE_rejects_iff, decodeF_rejects_iff]

/-- Settles O4: eight words, decoded. -/
theorem exampleWordsDecode : Obligations.ExampleWordsDecode := by
  unfold Obligations.ExampleWordsDecode
  decide

end Sys2Proof.Machine

/-! ## Proofs: what an instruction can do. Every instruction either raises a fault of its checks or commits, said once
for `exec` (00_scope.md rule R10), and what every commit leaves unchanged. -/

namespace Sys2Proof.Machine

/-! ### The two ends of an instruction -/

/-- The checks of the instruction raise fault `c` at `s`; an instruction without checks raises none. -/
def Raises (s : State) (c : FaultCause) : Instr → Prop
  | .ret => s.sp.val = 0 ∧ c = ⟨.stackUnderflow, none⟩
  | .call _ => s.sp.val = 16 ∧ c = ⟨.stackOverflow, none⟩
  | .sys _ => c = ⟨.unsupportedSys, none⟩
  | .drw x y n => s.spriteHits x y n = .error c
  | .skp x | .sknp x => (s.reg x).toNat > 15 ∧ c = ⟨.keyIndexOob, some (s.reg x).toNat⟩
  | .ldB _ => s.checkWriteAll (s.dataAddrs 3) = .error c
  | .ldMemVx x => s.checkWriteAll (s.dataAddrs (regCount x)) = .error c
  | .ldVxMem x => s.memReadAll (s.dataAddrs (regCount x)) = .error c
  | _ => False

/-- The instruction passes its checks at `s` and leaves `t`; an instruction without checks leaves what `exec` gives. -/
def Commits (s t : State) : Instr → Prop
  | .ret => s.sp.val ≠ 0 ∧ t = s.pop.setPc (s.stackAt (s.sp.val - 1) + 2#16)
  | .call nnn => s.sp.val ≠ 16 ∧ t = (s.push s.pc).setPc (zextAddr nnn)
  | .sys _ => False
  | .drw x y n => ∃ hits, s.spriteHits x y n = .ok hits ∧
      t = ({ s with display := toggleHits s.display hits }.setFlag (collisionFlag s.display hits)).advance
  | .skp x => (s.reg x).toNat ≤ 15 ∧ t = s.skipIf (s.keyDown (s.reg x).toNat)
  | .sknp x => (s.reg x).toNat ≤ 15 ∧ t = s.skipIf (!s.keyDown (s.reg x).toNat)
  | .ldB x => (∀ a ∈ s.dataAddrs 3, s.writable a) ∧
      t = (s.storeBytes (s.dataAddr 0) (bcdDigits (s.reg x))).advance
  | .ldMemVx x => (∀ a ∈ s.dataAddrs (regCount x), s.writable a) ∧
      t = ((s.storeBytes (s.dataAddr 0) (s.regBytes (regCount x))).setI (s.indexAfter (regCount x))).advance
  | .ldVxMem x => ∃ bs, s.memReadAll (s.dataAddrs (regCount x)) = .ok bs ∧ bs.length = regCount x ∧
      t = ((s.loadRegs bs).setI (s.indexAfter (regCount x))).advance
  | .ldVxK x => (s.highestKeyBelow numKeys = none ∧ t = s) ∨
      ∃ k, s.highestKeyBelow numKeys = some k ∧ t = (s.setReg x (BitVec.ofNat 8 k)).advance
  | i => exec i s = .next t

theorem next_inj {t u : State} : (Host.Outcome.next t : Host.Outcome State Fault Refusal) = .next u ↔ u = t :=
  ⟨fun h => by cases h; rfl, fun h => by rw [h]⟩

/-- Writes whose checks pass are to addresses an instruction may write. -/
theorem checkWriteAll_eq_ok {s : State} {l : List Nat} (h : s.checkWriteAll l = .ok ()) : ∀ a ∈ l, s.writable a := by
  obtain ⟨hw, -⟩ | ⟨a, -, -, he⟩ | ⟨a, -, -, -, he⟩ := checkWriteAll_cases s l
  · exact hw
  · rw [he] at h; cases h
  · rw [he] at h; cases h

/-- A read that succeeds gives one byte for each address. -/
theorem length_of_memReadAll {s : State} {l : List Nat} {bs : List Byte} (h : s.memReadAll l = .ok bs) :
    bs.length = l.length := by
  obtain ⟨-, hok⟩ | ⟨a, -, -, he⟩ := memReadAll_cases s l
  · rw [hok] at h; cases h; exact List.length_map ..
  · rw [he] at h; cases h

/-- All that an instruction can do: its commit, or a fault of its checks taken with its own word. -/
theorem exec_commits_or_raises {i : Instr} {s t : State} (h : exec i s = .next t) :
    Commits s t i ∨ ∃ c, Raises s c i ∧ t = s.takeFault c (some (encode i)) := by
  cases i
  case sys nnn => exact .inr ⟨_, rfl, next_inj.1 h⟩
  case ret =>
    by_cases hsp : s.sp.val = 0
    · rw [exec_ret_of_empty hsp] at h; exact .inr ⟨_, ⟨hsp, rfl⟩, next_inj.1 h⟩
    · rw [exec_ret_of_nonempty hsp] at h; exact .inl ⟨hsp, next_inj.1 h⟩
  case call nnn =>
    by_cases hsp : s.sp.val = 16
    · rw [exec_call_of_full nnn hsp] at h; exact .inr ⟨_, ⟨hsp, rfl⟩, next_inj.1 h⟩
    · rw [exec_call_of_not_full nnn hsp] at h; exact .inl ⟨hsp, next_inj.1 h⟩
  case drw x y n =>
    cases hc : s.spriteHits x y n with
    | ok hits => rw [exec_drw_of_ok hc] at h; exact .inl ⟨hits, hc, next_inj.1 h⟩
    | error c => rw [exec_drw_of_error hc] at h; exact .inr ⟨c, hc, next_inj.1 h⟩
  case skp x =>
    by_cases hx : (s.reg x).toNat ≤ 15
    · rw [exec_skp_of_le hx] at h; exact .inl ⟨hx, next_inj.1 h⟩
    · rw [exec_skp_of_gt (Nat.lt_of_not_le hx)] at h; exact .inr ⟨_, ⟨Nat.lt_of_not_le hx, rfl⟩, next_inj.1 h⟩
  case sknp x =>
    by_cases hx : (s.reg x).toNat ≤ 15
    · rw [exec_sknp_of_le hx] at h; exact .inl ⟨hx, next_inj.1 h⟩
    · rw [exec_sknp_of_gt (Nat.lt_of_not_le hx)] at h; exact .inr ⟨_, ⟨Nat.lt_of_not_le hx, rfl⟩, next_inj.1 h⟩
  case ldB x =>
    cases hc : s.checkWriteAll (s.dataAddrs 3) with
    | ok _ => rw [exec_ldB_of_ok hc] at h; exact .inl ⟨checkWriteAll_eq_ok hc, next_inj.1 h⟩
    | error c => rw [exec_ldB_of_error hc] at h; exact .inr ⟨c, hc, next_inj.1 h⟩
  case ldMemVx x =>
    cases hc : s.checkWriteAll (s.dataAddrs (regCount x)) with
    | ok _ => rw [exec_ldMemVx_of_ok hc] at h; exact .inl ⟨checkWriteAll_eq_ok hc, next_inj.1 h⟩
    | error c => rw [exec_ldMemVx_of_error hc] at h; exact .inr ⟨c, hc, next_inj.1 h⟩
  case ldVxMem x =>
    cases hc : s.memReadAll (s.dataAddrs (regCount x)) with
    | ok bs =>
      rw [exec_ldVxMem_of_ok hc] at h
      exact .inl ⟨bs, hc, by rw [length_of_memReadAll hc, length_dataAddrs], next_inj.1 h⟩
    | error c => rw [exec_ldVxMem_of_error hc] at h; exact .inr ⟨c, hc, next_inj.1 h⟩
  case ldVxK x =>
    cases hc : s.highestKeyBelow numKeys with
    | none => rw [exec_ldVxK_of_none hc] at h; exact .inl (.inl ⟨hc, next_inj.1 h⟩)
    | some k => rw [exec_ldVxK_of_some hc] at h; exact .inl (.inr ⟨k, hc, next_inj.1 h⟩)
  all_goals exact .inl h

/-! ### The footprint of an instruction -/

/-- What the spec's rules let an instruction change: the registers of its "writes" column (R22), and each other piece of
state by the instructions that the rules name (10_state.md sections 2 to 8). -/
def footprint (i : Instr) : Footprint where
  regs r := writesReg r i
  index := (∃ nnn, i = .ldI nnn) ∨ ∃ x, i = .addI x ∨ i = .ldF x ∨ i = .ldMemVx x ∨ i = .ldVxMem x
  sp := i = .ret ∨ ∃ nnn, i = .call nnn
  entries _ := ∃ nnn, i = .call nnn
  dt := ∃ x, i = .ldDtVx x
  st := ∃ x, i = .ldStVx x
  cells _ := i = .cls ∨ ∃ x y n, i = .drw x y n
  bytes _ := ∃ x, i = .ldB x ∨ i = .ldMemVx x
  clearReq := i = .cls
  draws := ∃ x nn, i = .rnd x nn

section
variable {f : Footprint} {s t : State} (h : Unchanged f s t)
include h

/-- A write to a register keeps a frame that the register stands in. -/
theorem Unchanged.setReg {x : Reg} (hx : f.regs x) (b : Byte) : Unchanged f s (t.setReg x b) :=
  { h with
    regs := fun r hr => by
      have hne : r ≠ x := fun he => hr (he ▸ hx)
      rw [reg_setReg, if_neg hne, h.regs r hr] }

/-- A flagged commit keeps a frame that its destination and VF stand in (R120). -/
theorem Unchanged.commitFlagged {d : Reg} (hd : f.regs d) (hF : f.regs regF) (r : Byte) (b : Bool) :
    Unchanged f s (t.commitFlagged d r b) := by
  unfold State.commitFlagged
  split
  · exact (h.setReg hd r).setFlag hF b
  · exact (h.setFlag hF b).setReg hd r

/-- A write to I keeps a frame that names I. -/
theorem Unchanged.setIndex (hi : f.index) (w : Word) : Unchanged f s (t.setI w) :=
  { h with index := fun hn => absurd hi hn }

/-- A load of registers keeps a frame that they stand in. -/
theorem Unchanged.loadRegs {bs : List Byte} (hb : ∀ r : Reg, r.toNat < bs.length → f.regs r) :
    Unchanged f s (t.loadRegs bs) :=
  { h with regs := fun r hr => by rw [reg_loadRegs, if_neg (mt (hb r) hr), h.regs r hr] }

theorem Unchanged.setDt (hd : f.dt) (b : Byte) : Unchanged f s (t.setDt b) :=
  { h with dt := fun hn => absurd hd hn }

theorem Unchanged.setSt (hd : f.st) (b : Byte) : Unchanged f s (t.setSt b) :=
  { h with st := fun hn => absurd hd hn }

theorem Unchanged.setDraws (hd : f.draws) (n : Nat) : Unchanged f s { t with draws := n } :=
  { h with draws := fun hn => absurd hd hn }

theorem Unchanged.pop (hp : f.sp) : Unchanged f s t.pop :=
  { h with sp := fun hn => absurd hp hn }

theorem Unchanged.push (hp : f.sp) (he : ∀ k, f.entries k) (w : Word) : Unchanged f s (t.push w) :=
  { h with sp := fun hn => absurd hp hn, entries := fun k hn => absurd (he k) hn }

theorem Unchanged.storeBytes (hb : ∀ a, f.bytes a) (a : Nat) (bs : List Byte) : Unchanged f s (t.storeBytes a bs) :=
  { h with bytes := fun a hn => absurd (hb a) hn }

theorem Unchanged.clearDisplay (hp : ∀ p, f.cells p) (hc : f.clearReq) :
    Unchanged f s { t with display := displayClear, clearReq := true } :=
  { h with cells := fun p hn => absurd (hp p) hn, clearReq := fun hn => absurd hc hn }

end

/-- A commit changes nothing that stands outside its instruction's footprint. -/
theorem unchanged_of_commits {i : Instr} {s t : State} (h : Commits s t i) : Unchanged (footprint i) s t := by
  have hs : Unchanged (footprint i) s s := Unchanged.refl _ s
  cases i
  case cls => cases h; exact (hs.clearDisplay (fun _ => .inl rfl) rfl).setPc _
  case ret => obtain ⟨-, rfl⟩ := h; exact (hs.pop (.inl rfl)).setPc _
  case call nnn => obtain ⟨-, rfl⟩ := h; exact (hs.push (.inr ⟨nnn, rfl⟩) (fun _ => ⟨nnn, rfl⟩) _).setPc _
  case sys => cases h
  case jp | jpV0 | seImm | sneImm | seReg | sneReg => cases h; exact hs.setPc _
  case skp | sknp => obtain ⟨-, rfl⟩ := h; exact hs.setPc _
  case ldImm | addImm | ldReg | orReg | andReg | xorReg | ldVxDt => cases h; exact (hs.setReg rfl _).setPc _
  case addReg | shr | subn | shl | sub => cases h; exact (hs.commitFlagged (.inl rfl) (.inr rfl) _ _).setPc _
  case rnd x nn => cases h; exact ((hs.setReg rfl _).setDraws ⟨x, nn, rfl⟩ _).setPc _
  case drw x y n =>
    obtain ⟨hits, -, rfl⟩ := h
    have hcells : ∀ p, (footprint (.drw x y n)).cells p := fun _ => .inr ⟨x, y, n, rfl⟩
    exact ((unchanged_toggleHits s fun p _ => hcells p).setFlag rfl _).setPc _
  case ldVxK =>
    obtain ⟨-, rfl⟩ | ⟨k, -, rfl⟩ := h
    · exact hs
    · exact (hs.setReg rfl _).setPc _
  case ldDtVx x => cases h; exact (hs.setDt ⟨x, rfl⟩ _).setPc _
  case ldStVx x => cases h; exact (hs.setSt ⟨x, rfl⟩ _).setPc _
  case ldI nnn => cases h; exact (hs.setIndex (.inl ⟨nnn, rfl⟩) _).setPc _
  case addI x => cases h; exact ((hs.setFlag rfl _).setIndex (.inr ⟨x, .inl rfl⟩) _).setPc _
  case ldF x => cases h; exact (hs.setIndex (.inr ⟨x, .inr (.inl rfl)⟩) _).setPc _
  case ldB x => obtain ⟨-, rfl⟩ := h; exact (hs.storeBytes (fun _ => ⟨x, .inl rfl⟩) _ _).setPc _
  case ldMemVx x =>
    obtain ⟨-, rfl⟩ := h
    exact ((hs.storeBytes (fun _ => ⟨x, .inr rfl⟩) _ _).setIndex (.inr ⟨x, .inr (.inr (.inl rfl))⟩) _).setPc _
  case ldVxMem x =>
    obtain ⟨bs, -, hlen, rfl⟩ := h
    have hregs : ∀ r : Reg, r.toNat < bs.length → (footprint (.ldVxMem x)).regs r := fun r hr =>
      Nat.le_of_lt_succ (Nat.lt_of_lt_of_eq hr hlen)
    exact ((hs.loadRegs hregs).setIndex (.inr ⟨x, .inr (.inr (.inr rfl))⟩) _).setPc _

/-- Whatever it does, an instruction changes nothing outside its footprint, except that a fault it takes sets FAULT and
both outputs (R203). -/
theorem unchanged_or_takesFault {i : Instr} {s t : State} (h : exec i s = .next t) :
    Unchanged (footprint i) s t ∨ ∃ c, t = s.takeFault c (some (encode i)) :=
  (exec_commits_or_raises h).imp unchanged_of_commits fun ⟨c, _, ht⟩ => ⟨c, ht⟩

/-- Settles O47: the footprint names the writers of each piece of state, and a fault taken writes none of them. -/
theorem specialStateWriters : Obligations.SpecialStateWriters := by
  intro i s t h
  have hkept : t.keys = s.keys ∧ t.params = s.params := by
    obtain ⟨-, -, hkeys, hparams, -⟩ | ⟨c, rfl⟩ := exec_next_cases h
    · exact ⟨hkeys, hparams⟩
    · exact ⟨rfl, rfl⟩
  obtain hframe | ⟨c, rfl⟩ := unchanged_or_takesFault h
  · exact ⟨not_imp_comm.1 hframe.index, not_imp_comm.1 hframe.sp, fun k => not_imp_comm.1 (hframe.entries k),
      not_imp_comm.1 hframe.dt, not_imp_comm.1 hframe.st, fun p => not_imp_comm.1 (hframe.cells p),
      fun a => not_imp_comm.1 (hframe.bytes a), hkept⟩
  · exact ⟨(absurd rfl ·), (absurd rfl ·), fun _ => (absurd rfl ·), (absurd rfl ·), (absurd rfl ·),
      fun _ => (absurd rfl ·), fun _ => (absurd rfl ·), hkept⟩

end Sys2Proof.Machine

/-! ## Proofs: what every step keeps. Where an instruction can leave PC and what it can make of memory, and from these
the invariant over steps, resets, loads and key writes, the font table and the fetch of stored words. -/

namespace Sys2Proof.Machine

/-- A flagged commit leaves PC. -/
@[simp] theorem commitFlagged_pc (s : State) (d : Reg) (r : Byte) (f : Bool) : (s.commitFlagged d r f).pc = s.pc := by
  rw [commitFlagged_eq]

/-- A flagged commit leaves memory. -/
@[simp] theorem commitFlagged_mem (s : State) (d : Reg) (r : Byte) (f : Bool) :
    (s.commitFlagged d r f).mem = s.mem := by
  rw [commitFlagged_eq]

/-! ### PC -/

/-- The largest address that a jump reaches is 0xFFF + 0xFF (R24, R108). -/
theorem zextAddr_add_zextByte_le (nnn : Addr12) (b : Byte) : (zextAddr nnn + zextByte b).toNat ≤ 0x10FE := by
  rw [zextAddr_add_zextByte_toNat]; omega

theorem zextAddr_le (nnn : Addr12) : (zextAddr nnn).toNat ≤ 0x10FE := by
  rw [zextAddr_toNat]; omega

/-- Where a commit leaves PC: where it was, at most 4 further, at a jump's target, or past the CALL that is popped. -/
theorem pc_of_commits {i : Instr} {s t : State} (h : Commits s t i) :
    (∃ n ≤ 4, t.pc = s.pc + BitVec.ofNat 16 n) ∨ t.pc.toNat ≤ 0x10FE ∨
    (s.sp.val ≠ 0 ∧ t.pc = s.stackAt (s.sp.val - 1) + 2#16) := by
  have hadvance : ∀ {u : State}, u.pc = s.pc + 2#16 → ∃ n ≤ 4, u.pc = s.pc + BitVec.ofNat 16 n :=
    fun hu => ⟨2, by decide, hu⟩
  have hskip : ∀ taken : Bool, ∃ n ≤ 4, (s.skipIf taken).pc = s.pc + BitVec.ofNat 16 n
    | true => ⟨4, by decide, rfl⟩
    | false => ⟨2, by decide, rfl⟩
  cases i
  case ret => obtain ⟨hsp, rfl⟩ := h; exact .inr (.inr ⟨hsp, rfl⟩)
  case sys => cases h
  case call nnn => obtain ⟨-, rfl⟩ := h; exact .inr (.inl (zextAddr_le nnn))
  case jp nnn => cases h; exact .inr (.inl (zextAddr_le nnn))
  case jpV0 nnn => cases h; exact .inr (.inl (zextAddr_add_zextByte_le nnn _))
  case seImm | sneImm | seReg | sneReg => cases h; exact .inl (hskip _)
  case skp | sknp => obtain ⟨-, rfl⟩ := h; exact .inl (hskip _)
  case ldVxK =>
    obtain ⟨-, rfl⟩ | ⟨k, -, rfl⟩ := h
    · exact .inl ⟨0, by decide, (BitVec.add_zero _).symm⟩
    · exact .inl (hadvance rfl)
  case drw => obtain ⟨hits, -, rfl⟩ := h; exact .inl (hadvance rfl)
  case ldB | ldMemVx => obtain ⟨-, rfl⟩ := h; exact .inl (hadvance rfl)
  case ldVxMem => obtain ⟨bs, -, -, rfl⟩ := h; exact .inl (hadvance rfl)
  all_goals cases h; exact .inl (hadvance (by simp [setFlag_eq]))

/-! ### Memory -/

@[simp] theorem endStep_byteAt (s : State) (a : Nat) : s.endStep.byteAt a = s.byteAt a := by
  unfold State.endStep
  split <;> rfl

/-- What a commit makes of memory: nothing, or a store of bytes at data addresses that may be written (R55). -/
theorem mem_of_commits {i : Instr} {s t : State} (h : Commits s t i) :
    t.mem = s.mem ∨ ∃ bs : List Byte, 0 < bs.length ∧ (∀ a ∈ s.dataAddrs bs.length, s.writable a) ∧
      t.mem = (s.storeBytes (s.dataAddr 0) bs).mem := by
  cases i
  case ldB x => obtain ⟨hw, rfl⟩ := h; exact .inr ⟨bcdDigits (s.reg x), Nat.succ_pos _, hw, rfl⟩
  case ldMemVx x =>
    obtain ⟨hw, rfl⟩ := h
    have hlen : (s.regBytes (regCount x)).length = regCount x := length_regBytes s _
    exact .inr ⟨_, by rw [hlen]; exact Nat.succ_pos _, by rwa [hlen], rfl⟩
  case sys => cases h
  case ret | call | skp | sknp => obtain ⟨-, rfl⟩ := h; exact .inl rfl
  case drw => obtain ⟨hits, -, rfl⟩ := h; exact .inl rfl
  case ldVxMem => obtain ⟨bs, -, -, rfl⟩ := h; exact .inl rfl
  case ldVxK => obtain ⟨-, rfl⟩ | ⟨k, -, rfl⟩ := h <;> exact .inl rfl
  all_goals cases h; exact .inl (by simp [setFlag_eq])

/-- Data addresses that may be written end inside memory. -/
theorem dataAddr_le_of_writable {s : State} {n : Nat} (hn : 0 < n) (h : ∀ a ∈ s.dataAddrs n, s.writable a) :
    s.dataAddr n ≤ memSize := by
  obtain ⟨hlast, -⟩ := h (s.dataAddr (n - 1)) ((mem_dataAddrs s n _).2 (by unfold State.dataAddr; omega))
  unfold State.dataAddr memSize at *
  omega

/-- Every instruction keeps memory canonical. -/
theorem exec_keeps_wf {i : Instr} {s t : State} (hwf : s.mem.wf = true) (h : exec i s = .next t) :
    t.mem.wf = true := by
  obtain hc | ⟨c, -, rfl⟩ := exec_commits_or_raises h
  · obtain hm | ⟨bs, hpos, hw, hm⟩ := mem_of_commits hc
    · rw [hm, hwf]
    · rw [hm]; exact Memory.wf_writeBytes _ _ _ (dataAddr_le_of_writable hpos hw) hwf
  · exact hwf

/-- No instruction changes a byte that it may not write (R55). -/
theorem exec_byteAt_of_not_writable {i : Instr} {s t : State} (hwf : s.mem.wf = true) (h : exec i s = .next t)
    {a : Nat} (ha : ¬ s.writable a) : t.byteAt a = s.byteAt a := by
  obtain hc | ⟨c, -, rfl⟩ := exec_commits_or_raises h
  · obtain hm | ⟨bs, hpos, hw, hm⟩ := mem_of_commits hc
    · exact congrArg (Memory.read · a) hm
    · have hout : ¬ (s.dataAddr 0 ≤ a ∧ a < s.dataAddr 0 + bs.length) := fun hin =>
        ha (hw a ((mem_dataAddrs s _ a).2 hin))
      calc t.byteAt a = (s.storeBytes (s.dataAddr 0) bs).byteAt a := congrArg (Memory.read · a) hm
        _ = s.byteAt a := by
          rw [byteAt_storeBytes s (s.dataAddr 0) a bs (dataAddr_le_of_writable hpos hw) hwf, if_neg hout]
  · rfl

/-- Settles O48: the font table is what no instruction may write, and the end of a step writes no memory. -/
theorem fontStaysReadOnly : Obligations.FontStaysReadOnly := by
  intro s t hwf hfont hstep a ha
  obtain ⟨-, ⟨c, -, rfl⟩ | ⟨w, -, -, rfl⟩ | ⟨w, i, u, -, hexec, rfl⟩⟩ := step_next_cases hstep
  · rfl
  · rfl
  · have hlocked : ¬ s.clearOutputs.writable a := fun hw => hw.2 ⟨ha, hfont⟩
    rw [endStep_byteAt, exec_byteAt_of_not_writable (s := s.clearOutputs) hwf hexec hlocked, State.clearOutputs_byteAt]

/-! ### The invariant over a step -/

/-- A fetch that succeeds was from an even address, where odd ones fault, at most 0xFFE (R70). -/
theorem pc_of_fetch_ok {s : State} {w : Word} (h : s.fetch = .ok w) :
    s.pc.toNat ≤ 0xFFE ∧ (s.params.oddPc = .fault → s.pc.toNat % 2 = 0) := by
  obtain ⟨-, he⟩ | ⟨-, -, -, he⟩ | ⟨hpc, hpass, -⟩ := fetch_cases s
  · rw [he] at h; cases h
  · rw [he] at h; cases h
  · exact ⟨hpc, fun hpol => hpass.resolve_right (by rw [hpol]; nofun)⟩

theorem State.Inv.takeFault {s : State} (h : s.Inv) (c : FaultCause) (w : Option Word) : (s.takeFault c w).Inv :=
  { h with outputs := fun _ => ⟨rfl, rfl⟩ }

theorem State.Inv.clearOutputs {s : State} (h : s.Inv) : s.clearOutputs.Inv :=
  { h with outputs := fun _ => ⟨rfl, rfl⟩ }

theorem State.Inv.endStep {s : State} (h : s.Inv) : s.endStep.Inv := by
  cases hf : s.fault with
  | none => rw [endStep_of_running s hf]; exact { h with outputs := fun hn => absurd hf hn }
  | some r => rwa [endStep_of_faulted s r hf]

theorem cellToggled_zero_or_one (c : Byte) : cellToggled c = 0x00#8 ∨ cellToggled c = 0x01#8 := by
  rw [cellToggled_eq]
  split
  · exact .inr rfl
  · exact .inl rfl

/-- A commit keeps every cell at 0 or 1 (R29): CLS writes 0, a draw toggles, and no other instruction writes cells. -/
theorem cells_of_commits {i : Instr} {s t : State} (h : Commits s t i)
    (hcells : ∀ p, Display.cell s.display p = 0x00#8 ∨ Display.cell s.display p = 0x01#8) (p : Pixel) :
    Display.cell t.display p = 0x00#8 ∨ Display.cell t.display p = 0x01#8 := by
  by_cases hi : (footprint i).cells p
  · obtain rfl | ⟨x, y, n, rfl⟩ := hi
    · cases h; exact .inl (cell_displayClear p)
    · obtain ⟨hits, -, rfl⟩ := h
      rw [State.advance_display, setFlag_eq, State.setReg_display, cell_toggleHits]
      split
      · exact cellToggled_zero_or_one _
      · exact hcells p
  · rw [(unchanged_of_commits h).cells p hi]; exact hcells p

/-- A commit keeps every live stack entry the address of a fetched CALL (R101): a CALL pushes the address it was fetched
from, a RET leaves fewer entries, and no other instruction touches the stack. -/
theorem calls_of_commits {i : Instr} {s t : State} (h : Commits s t i)
    {P : Word → Prop} (hpc : P s.pc) (hcalls : ∀ k, k < s.sp.val → P (s.stackAt k)) :
    ∀ k, k < t.sp.val → P (t.stackAt k) := by
  have hframe := unchanged_of_commits h
  by_cases hi : (footprint i).sp
  · obtain rfl | ⟨nnn, rfl⟩ := hi
    · obtain ⟨-, rfl⟩ := h
      intro k hk
      rw [State.setPc_sp, sp_pop] at hk
      exact hcalls k (by omega)
    · obtain ⟨hsp, rfl⟩ := h
      have hlt : s.sp.val < 16 := by omega
      intro k hk
      rw [State.setPc_sp, sp_push s _ hlt] at hk
      rw [State.setPc_stackAt, stackAt_push s _ k hlt]
      split
      · exact hpc
      · exact hcalls k (by omega)
  · intro k hk
    rw [hframe.sp hi] at hk
    rw [hframe.entries k fun ⟨nnn, he⟩ => hi (.inr ⟨nnn, he⟩)]
    exact hcalls k hk

/-- A commit of a fetched instruction keeps the invariant. -/
theorem State.Inv.of_commits {i : Instr} {s t : State} (hinv : s.Inv) (hrun : s.fault = none)
    (hpc : s.pc.toNat ≤ 0xFFE) (heven : s.params.oddPc = .fault → s.pc.toNat % 2 = 0) (hexec : exec i s = .next t)
    (h : Commits s t i) : t.Inv where
  mem := exec_keeps_wf hinv.mem hexec
  cells := cells_of_commits h hinv.cells
  pc := by
    obtain ⟨n, hn, ht⟩ | hle | ⟨hsp, ht⟩ := pc_of_commits h
    · rw [ht, BitVec.toNat_add, BitVec.toNat_ofNat]; omega
    · exact hle
    · obtain ⟨hentry, -⟩ := hinv.calls (s.sp.val - 1) (by omega)
      rw [ht, BitVec.toNat_add, BitVec.toNat_ofNat]; omega
  calls := by
    have hframe := unchanged_of_commits h
    rw [hframe.params]
    exact calls_of_commits (P := fun w => w.toNat ≤ 0xFFE ∧ (s.params.oddPc = .fault → w.toNat % 2 = 0)) h
      ⟨hpc, heven⟩ hinv.calls
  outputs := fun hf => absurd ((unchanged_of_commits h).fault.trans hrun) hf

/-- Settles O53: a fault taken touches none of the invariant's state but the outputs, which it clears; a commit keeps it
(`State.Inv.of_commits`), since a fetch from `s` succeeded. -/
theorem stepKeepsInv : Obligations.StepKeepsInv := by
  intro s t hinv hstep
  have hclear := hinv.clearOutputs
  obtain ⟨hrun, ⟨c, -, rfl⟩ | ⟨w, -, -, rfl⟩ | ⟨w, i, u, ⟨-, hfetch, -⟩, hexec, rfl⟩⟩ := step_next_cases hstep
  · exact hclear.takeFault _ _
  · exact hclear.takeFault _ _
  · obtain ⟨hpc, heven⟩ := pc_of_fetch_ok hfetch
    obtain hc | ⟨c, -, rfl⟩ := exec_commits_or_raises hexec
    · exact (hclear.of_commits hrun hpc heven hexec hc).endStep
    · exact (hclear.takeFault _ _).endStep

end Sys2Proof.Machine

/-! ## Proofs: the host interface. Memory and the rest of the state at reset, memory after a load, the session's phases,
and the display read out (60_exceptions.md section 6, 70_reset_and_hazards.md). -/

namespace Sys2Proof.Machine

/-! ### Reset -/

/-- Past the font table an unlisted address reads as 0 (R52). -/
theorem background_of_ge {a : Nat} (ha : fontSize ≤ a) : background a = 0x00#8 := by
  have hlen : standardFont.toList.length ≤ a := by rwa [Vector.length_toList]
  rw [background, List.getD_eq_getElem?_getD, List.getElem?_eq_none hlen]
  rfl

theorem font_fits (p : Params) : 0 + p.font.toList.length ≤ memSize := by
  rw [Vector.length_toList]; decide

theorem wf_resetWith (p : Params) : (State.resetWith p).mem.wf = true :=
  Memory.wf_writeBytes _ _ _ (font_fits p) Memory.wf_nil

/-- A byte of memory after reset (R250): FONT, and 0 past it. -/
theorem byteAt_resetWith (p : Params) (a : Nat) :
    (State.resetWith p).byteAt a = if h : a < 80 then p.font[a] else 0x00#8 := by
  have hread := Memory.read_writeBytes p.font.toList [] 0 a (font_fits p) Memory.wf_nil
  rw [Vector.length_toList, Nat.zero_add, Nat.sub_zero] at hread
  refine hread.trans ?_
  by_cases ha : a < 80
  · rw [if_pos ⟨Nat.zero_le a, ha⟩, dif_pos ha, List.getD_eq_getElem?_getD, Vector.getElem?_toList,
      Vector.getElem?_eq_getElem ha, Option.getD_some]
  · rw [if_neg fun h => ha h.2, dif_neg ha]
    exact background_of_ge (Nat.le_of_not_lt ha)

/-- The standard font is the background, so writing it lists no cell. -/
theorem writeBytes_standardFont : Memory.writeBytes [] 0 standardFont.toList = [] := by decide

theorem resetWith_hardwareParams : State.resetWith hardwareParams = State.reset :=
  congrArg (fun m => { State.reset with mem := m }) writeBytes_standardFont

/-- At reset nothing is drawn, no call is live and nothing has faulted. -/
theorem inv_resetWith (p : Params) : (State.resetWith p).Inv where
  mem := wf_resetWith p
  cells q := .inl (cell_displayClear q)
  pc := (show (0x0200#16).toNat ≤ 0x10FE by decide)
  calls k hk := absurd hk (Nat.not_lt_zero k)
  outputs hf := absurd rfl hf

/-- Settles O54: `State.reset` is the reset with this spec's parameters. -/
theorem resetMeetsInv : Obligations.ResetMeetsInv :=
  ⟨resetWith_hardwareParams ▸ inv_resetWith hardwareParams, inv_resetWith⟩

theorem reg_reset (r : Reg) : State.reset.reg r = 0x00#8 := Vector.getElem_replicate r.isLt

theorem stackAt_reset (k : Nat) : State.reset.stackAt k = 0x0000#16 := by
  unfold State.stackAt
  split
  case isTrue hk => exact Vector.getElem_replicate hk
  case isFalse => rfl

theorem keyDown_reset (k : Nat) : State.reset.keyDown k = false := by
  unfold State.keyDown
  split
  case isTrue hk => exact Vector.getElem_replicate hk
  case isFalse => rfl

/-- Settles O57: a host reset is `State.reset` but for the parameters, memory, which holds FONT, and the count of
draws. -/
theorem resetState : Obligations.ResetState := by
  refine ⟨fun s => ⟨reg_reset, rfl, rfl, stackAt_reset, rfl, rfl, rfl, keyDown_reset, cell_displayClear,
    fun a ha => ?font, fun a ha => ?past, rfl, rfl, rfl, rfl⟩, resetWith_hardwareParams⟩
  case font => exact (byteAt_resetWith s.params a).trans (dif_pos ha)
  case past => exact (byteAt_resetWith s.params a).trans (dif_neg (Nat.not_lt.2 ha))

/-! ### Load -/

theorem load_image {s : State} {bytes : List Byte} (h : bytes.length ≤ progMax) :
    s.load (.image bytes) = .ok (s.storeBytes progBase bytes) := if_neg (Nat.not_lt.2 h)

theorem load_image_too_long {s : State} {bytes : List Byte} (h : bytes.length > progMax) :
    s.load (.image bytes) = .error .loadError := if_pos h

/-- A load that succeeds stores an image that fits (R252). -/
theorem load_eq_ok {s t : State} {src : ProgramSource} (h : s.load src = .ok t) :
    ∃ bytes : List Byte, bytes.length ≤ progMax ∧ t = s.storeBytes progBase bytes := by
  cases src with
  | image bytes =>
    by_cases hlen : bytes.length ≤ progMax
    · rw [load_image hlen] at h; cases h; exact ⟨bytes, hlen, rfl⟩
    · rw [load_image_too_long (Nat.lt_of_not_le hlen)] at h; cases h
  | unreadable => cases h
  | failedMidRead bytes => cases h

/-- The largest image ends inside memory. -/
theorem image_fits {bytes : List Byte} (h : bytes.length ≤ progMax) : progBase + bytes.length ≤ memSize := by
  unfold progMax at h; unfold progBase memSize; omega

/-- Settles O55: a load writes inside memory and nothing else, reset gives the invariant, and no key is part of it. -/
theorem hostKeepsInv : Obligations.HostKeepsInv := by
  refine ⟨fun s t src hinv hload => ?load, fun s => ?reset, fun s ks => ⟨fun hinv => ?keys, fun k hk => ?flags, rfl⟩⟩
  case load =>
    obtain ⟨bytes, hlen, rfl⟩ := load_eq_ok hload
    exact { hinv with mem := Memory.wf_writeBytes _ _ _ (image_fits hlen) hinv.mem }
  case reset => exact { inv_resetWith s.params with }
  case keys => exact { hinv with }
  case flags => exact dif_pos hk

/-! ### The session -/

theorem session_load_of_ok {h : Session} {src : ProgramSource} {t : State} (hphase : h.phase = .fresh)
    (hload : h.core.load src = .ok t) : h.load src = .ok (⟨t, .loaded⟩, true) := by
  rw [Session.load, hphase]
  simp only [hload]

theorem session_load_of_error {h : Session} {src : ProgramSource} {c : FaultCode} (hphase : h.phase = .fresh)
    (hload : h.core.load src = .error c) : h.load src = .ok (⟨h.core, .ended⟩, false) := by
  rw [Session.load, hphase]
  simp only [hload]

/-- A session that has not ended steps its core. -/
theorem session_step_of_fault {h : Session} {r : FaultRecord} (hphase : h.phase ≠ .ended)
    (hstep : step h.core = .fault (.stopped r)) : h.step = .ok (⟨h.core, .running⟩, .faulted r) := by
  unfold Session.step
  split
  case h_1 he => exact absurd he hphase
  all_goals simp only [hstep]

/-- A step that the session answers leaves it one that has run. -/
theorem session_step_phase {h h' : Session} {r : StepResult} (hstep : h.step = .ok (h', r)) : h'.phase = .running := by
  unfold Session.step at hstep
  split at hstep
  case h_1 => cases hstep
  all_goals split at hstep <;> cases hstep <;> rfl

/-- Settles O58: the image is stored inside memory, and a session that is not fresh refuses a load. -/
theorem loadPlacesImage : Obligations.LoadPlacesImage := by
  refine ⟨fun h bytes hphase hwf hlen => ?places, fun h hphase => ⟨?unreadable, fun bytes hlen => ?tooLong⟩,
    fun h src hphase => ?refused, fun h h' r => session_step_phase⟩
  case places =>
    have hbyte (a : Nat) := byteAt_storeBytes h.core progBase a bytes (image_fits hlen) hwf
    refine ⟨_, session_load_of_ok hphase (load_image hlen), rfl, fun k hk => ?_, fun a ha => ?_, rfl⟩
    · rw [hbyte, if_pos (by unfold progBase; omega)]
      exact congrArg (bytes.getD · 0) (Nat.add_sub_cancel_left 0x200 k)
    · rw [hbyte, if_neg (by unfold progBase; omega)]
  case unreadable => exact ⟨_, session_load_of_error hphase rfl⟩
  case tooLong => exact ⟨_, session_load_of_error hphase (load_image_too_long hlen)⟩
  case refused => rw [Session.load]; obtain hp | hp := hphase <;> rw [hp]

/-- Settles O59: each of the three sources is a load error, and an ended session answers reset alone. -/
theorem loadErrorEndsSession : Obligations.LoadErrorEndsSession := by
  refine ⟨fun h src hphase hsrc => ?ends, fun h hphase => ?refuses⟩
  case ends =>
    have hload : h.core.load src = .error .loadError := by
      obtain rfl | ⟨bytes, rfl⟩ | ⟨bytes, rfl, hlen⟩ := hsrc
      · rfl
      · rfl
      · exact load_image_too_long hlen
    exact ⟨hload, _, session_load_of_error hphase hload, rfl⟩
  case refuses =>
    exact ⟨by rw [Session.step, hphase], fun _ => by rw [Session.load, hphase],
      fun _ => by rw [Session.writeKeys, hphase], by rw [Session.readDisplay, hphase],
      by rw [Session.readState, hphase], rfl⟩

/-- A stopped core reports its record (R206). -/
theorem step_of_stopped {s : State} {r : FaultRecord} (h : s.fault = some r) : step s = .fault (.stopped r) := by
  rw [step, h]

/-- Settles O41: such a step is the record that stands in FAULT, which key writes leave and reset clears. -/
theorem stoppedCoreStays : Obligations.StoppedCoreStays :=
  ⟨fun _ _ => step_of_stopped, fun _ _ hr hphase => ⟨_, session_step_of_fault hphase (step_of_stopped hr), rfl⟩,
    fun _ _ => rfl, fun _ => rfl⟩

/-- Settles O60: the word at 0x200 is past the font, so it is 0x0000, the word of SYS. -/
theorem emptyImageFaults : Obligations.EmptyImageFaults := by
  intro p
  refine ⟨State.resetWith p, rfl, ?_⟩
  have hbyte (a : Nat) (ha : 80 ≤ a) : (State.resetWith p).byteAt a = 0x00#8 :=
    (byteAt_resetWith p a).trans (dif_neg (Nat.not_lt.2 ha))
  have hword : (State.resetWith p).wordAt 0x200 = 0x0000#16 := by
    rw [State.wordAt, hbyte 0x200 (by decide), hbyte 0x201 (by decide)]
    decide
  have hfetch : (State.resetWith p).fetch = .ok 0x0000#16 :=
    (fetch_of_checks_pass (s := State.resetWith p) (show (0x0200#16).toNat ≤ 0xFFE by decide)
      (.inl (show (0x0200#16).toNat % 2 = 0 by decide))).trans
      (congrArg Except.ok hword)
  exact step_of_executes ⟨rfl, hfetch, by decide⟩ (exec_sys 0x000#12 _)

/-! ### The display read out -/

theorem readDisplay_eq (s : State) : s.readDisplay = s.display.flatten.toList := by
  simp only [State.readDisplay, Vector.flatten, Vector.toList, Array.toList_flatten, Array.toList_map, List.map_map]
  rfl

/-- Settles O56: the rows one after the other, so that index `y * 64 + x` is in row `y`, column `x`. -/
theorem displayReadOut : Obligations.DisplayReadOut := by
  intro s
  rw [readDisplay_eq]
  refine ⟨Vector.length_toList, fun p => ?_⟩
  have hx := p.x.isLt
  have hy := p.y.isLt
  have hi : p.y.val * 64 + p.x.val < 32 * 64 := by omega
  have hrow : (p.y.val * 64 + p.x.val) / 64 = p.y.val := by omega
  have hcol : (p.y.val * 64 + p.x.val) % 64 = p.x.val := by omega
  rw [Vector.getElem?_toList, Vector.getElem?_eq_getElem hi, Vector.getElem_flatten]
  simp only [hrow, hcol]
  rfl

end Sys2Proof.Machine

/-! ## Proofs: steps. That every step of a running core answers, the timers and the outputs over steps, and the two ends
in which a core runs on without a fault (60_exceptions.md sections 1, 5 and 6, 70_reset_and_hazards.md). -/

namespace Sys2Proof.Machine

/-! ### Which instruction a step executes -/

/-- A running core fetches no word, or an unknown one, or one that it executes. -/
theorem step_executes_or_faults {s : State} (hrun : s.fault = none) :
    (∃ w i, s.Executes w i) ∨ ∃ c w, step s = .next (s.takeFault c w) := by
  cases hfetch : s.fetch with
  | error c => exact .inr ⟨c, none, step_of_fetch_error hrun hfetch⟩
  | ok w =>
    cases hdecode : decode w with
    | ok i => exact .inl ⟨w, i, hrun, hfetch, hdecode⟩
    | error e => exact .inr ⟨_, some w, step_of_unknown hrun hfetch fun i => by rw [hdecode]; nofun⟩

/-- Settles O38: no instruction is refused, and whatever else a step meets is a fault taken. -/
theorem runningStepAnswers : Obligations.RunningStepAnswers := by
  intro s hrun
  obtain ⟨w, i, hex⟩ | ⟨c, w, hstep⟩ := step_executes_or_faults hrun
  · obtain ⟨t, hexec⟩ := exec_answers i s.clearOutputs
    exact ⟨_, step_of_executes hex hexec⟩
  · exact ⟨_, hstep⟩

/-- A state executes one word and one instruction. -/
theorem executes_unique {s : State} {w w' : Word} {i i' : Instr} (h : s.Executes w i) (h' : s.Executes w' i') :
    w = w' ∧ i = i' := by
  obtain ⟨-, hfetch, hdecode⟩ := h
  obtain ⟨-, hfetch', hdecode'⟩ := h'
  rw [hfetch] at hfetch'
  cases hfetch'
  rw [hdecode] at hdecode'
  cases hdecode'
  exact ⟨rfl, rfl⟩

theorem tickDown_eq (b : Byte) : tickDown b = if b = 0x00#8 then 0x00#8 else b - 0x01#8 := by
  unfold tickDown
  split
  case isTrue h => exact h
  case isFalse => rfl

/-- Settles O36: the fetch gives the word of the two bytes, and the end of the step is the tick unless a fault stands. -/
theorem stepRunsDecoded : Obligations.StepRunsDecoded := by
  intro s i hrun hpc hpass hdecode
  have hword : s.wordAt s.pc.toNat = BitVec.ofNat 16
      ((s.byteAt s.pc.toNat).toNat * 256 + (s.byteAt (s.pc.toNat + 1)).toNat) := by
    rw [← wordOfBytes_toNat, BitVec.ofNat_toNat, BitVec.setWidth_eq, State.wordAt]
  rw [← hword] at hdecode
  obtain ⟨t, hexec⟩ := exec_answers i s.clearOutputs
  have hexec' : exec i { s with buzzer := false, clearReq := false } = .next t := hexec
  rw [step_of_executes ⟨hrun, fetch_of_checks_pass hpc hpass, hdecode⟩ hexec, hexec']
  refine congrArg Host.Outcome.next ?_
  by_cases hf : t.fault = none
  · rw [endStep_of_running t hf, if_pos hf, ← tickDown_eq, ← tickDown_eq]
    rfl
  · obtain ⟨r, hr⟩ := Option.ne_none_iff_exists'.1 hf
    rw [endStep_of_faulted t r hr, if_neg hf]

/-! ### Outputs -/

theorem endStep_clearReq (s : State) : s.endStep.clearReq = s.clearReq := by
  unfold State.endStep
  split <;> rfl

/-- An instruction ends with CLEAR_REQ raised exactly when it is CLS (R226). -/
theorem exec_clearReq_iff {i : Instr} {s t : State} (hs : s.clearReq = false) (h : exec i s = .next t) :
    t.clearReq = true ↔ i = .cls := by
  by_cases hi : i = .cls
  · subst hi; cases h; exact iff_of_true rfl rfl
  · refine iff_of_false (Bool.eq_false_iff.1 ?_) hi
    obtain hframe | ⟨c, rfl⟩ := unchanged_or_takesFault h
    · rw [hframe.clearReq hi, hs]
    · rfl

/-- Settles O45: the step clears both outputs before it fetches, and CLS alone raises CLEAR_REQ. -/
theorem outputsBelongToStep : Obligations.OutputsBelongToStep := by
  refine ⟨fun s t _ hstep => ?cls, fun s b c _ => rfl⟩
  obtain ⟨-, ⟨c, hfetch, rfl⟩ | ⟨w, hfetch, hunknown, rfl⟩ | ⟨w, i, u, hex, hexec, rfl⟩⟩ := step_next_cases hstep
  · refine iff_of_false nofun fun ⟨w, _, hok, _⟩ => ?_
    rw [hfetch] at hok; cases hok
  · refine iff_of_false nofun fun ⟨w', _, hok, hdecode⟩ => ?_
    rw [hfetch] at hok; cases hok
    exact hunknown _ hdecode
  · rw [endStep_clearReq, exec_clearReq_iff s.clearOutputs_clearReq hexec]
    exact ⟨fun hi => ⟨w, hi ▸ hex⟩, fun ⟨w', hex'⟩ => (executes_unique hex hex').2⟩

/-! ### Timers -/

/-- Without a fault a step that writes no timer counts both down (R215). -/
theorem timers_of_quiet_step {s t : State} {w : Word} {i : Instr} (hex : s.Executes w i) (hi : ¬ writesTimer i)
    (hstep : step s = .next t) (hrun : t.fault = none) :
    t.dt.toNat = s.dt.toNat - 1 ∧ t.st.toNat = s.st.toNat - 1 := by
  obtain ⟨u, hexec⟩ := exec_answers i s.clearOutputs
  rw [step_of_executes hex hexec] at hstep
  cases hstep
  rw [endStep_fault] at hrun
  rw [endStep_of_running u hrun, State.tick_dt, State.tick_st, tickDown_toNat, tickDown_toNat]
  obtain hframe | ⟨c, rfl⟩ := unchanged_or_takesFault hexec
  · rw [hframe.dt fun ⟨x, hx⟩ => hi (hx ▸ trivial), hframe.st fun ⟨x, hx⟩ => hi (hx ▸ trivial)]
    exact ⟨rfl, rfl⟩
  · cases hrun

/-- Settles O44, by induction on the run. -/
theorem timersCountDown : Obligations.TimersCountDown := by
  refine ⟨fun k s u hrun => ?counts, fun s t r hr hstep => ?stopped⟩
  case counts =>
    induction hrun with
    | zero s => exact ⟨rfl, rfl⟩
    | succ hex hi hstep hf _ ih =>
      obtain ⟨hdt, hst⟩ := timers_of_quiet_step hex hi hstep hf
      obtain ⟨ihdt, ihst⟩ := ih
      omega
  case stopped => rw [step_of_stopped hr] at hstep; cases hstep

/-! ### Steps that only tick -/

/-- The state after a step whose instruction changes nothing: outputs cleared and timers ticked. -/
def State.idled (s : State) : State := s.clearOutputs.tick

theorem idled_iterate_frame (s : State) (k : Nat) :
    ∃ dt st buzzer clearReq, State.idled^[k] s = { s with dt, st, buzzer, clearReq } := by
  induction k with
  | zero => exact ⟨s.dt, s.st, s.buzzer, s.clearReq, rfl⟩
  | succ k ih =>
    obtain ⟨dt, st, buzzer, clearReq, h⟩ := ih
    rw [Function.iterate_succ_apply', h]
    exact ⟨_, _, _, _, rfl⟩

theorem idled_iterate_timers (s : State) (k : Nat) :
    (State.idled^[k] s).dt.toNat = s.dt.toNat - k ∧ (State.idled^[k] s).st.toNat = s.st.toNat - k := by
  induction k with
  | zero => exact ⟨rfl, rfl⟩
  | succ k ih =>
    obtain ⟨hdt, hst⟩ := ih
    rw [Function.iterate_succ_apply', State.idled, State.tick_dt, State.tick_st, tickDown_toNat, tickDown_toNat,
      State.clearOutputs_dt, State.clearOutputs_st, hdt, hst]
    exact ⟨Nat.sub_sub _ _ _, Nat.sub_sub _ _ _⟩

/-- The `k`-th such step sounds the buzzer exactly when ST was `k` (R216). -/
theorem idled_iterate_outputs (s : State) {k : Nat} (hk : 0 < k) :
    (State.idled^[k] s).clearReq = false ∧ ((State.idled^[k] s).buzzer = true ↔ s.st.toNat = k) := by
  obtain ⟨n, rfl⟩ := Nat.exists_eq_add_of_lt hk
  rw [Nat.zero_add, Function.iterate_succ_apply', State.idled]
  refine ⟨rfl, ?_⟩
  rw [tick_buzzer_iff (State.clearOutputs_buzzer _), State.clearOutputs_st, (idled_iterate_timers s n).2]
  omega

/-- A run begins with its first step. -/
theorem core_run_succ {M : Host.Core} {s t : M.State} (h : M.step s = .next t) (k : Nat) :
    M.run (k + 1) s = M.run k t := by
  rw [Host.Core.run, h]

section
variable {P : State → Prop} (hstep : ∀ s, P s → step s = .next s.idled) (hkeep : ∀ s, P s → P s.idled)
include hstep hkeep

/-- While every step only ticks, so does a run. -/
theorem run_of_idling : ∀ (k : Nat) (s : State), P s →
    Host.Core.run Sys2Proof.core k s = .next (State.idled^[k] s) ∧ P (State.idled^[k] s)
  | 0, s, hs => ⟨rfl, hs⟩
  | k + 1, s, hs => by
    obtain ⟨hrun, hend⟩ := run_of_idling k s.idled (hkeep s hs)
    exact ⟨(core_run_succ (M := Sys2Proof.core) (hstep s hs) k).trans hrun, hend⟩

/-- What a run of steps that only tick leaves, in the form both ends state. -/
theorem idling_end (s : State) (hs : P s) (k : Nat) : ∃ t, Host.Core.run Sys2Proof.core k s = .next t ∧ P t ∧
    t.pc = s.pc ∧ t.dt.toNat = s.dt.toNat - k ∧ t.st.toNat = s.st.toNat - k ∧
    t.v = s.v ∧ t.i = s.i ∧ t.sp = s.sp ∧ t.stack = s.stack ∧ t.display = s.display ∧ t.mem = s.mem ∧
    t.keys = s.keys ∧ t.params = s.params ∧ t.draws = s.draws ∧
    (0 < k → t.clearReq = false ∧ (t.buzzer = true ↔ s.st.toNat = k)) := by
  obtain ⟨hrun, hend⟩ := run_of_idling hstep hkeep k s hs
  obtain ⟨hdt, hst⟩ := idled_iterate_timers s k
  have hout := idled_iterate_outputs s (k := k)
  obtain ⟨dt, st, buzzer, clearReq, hframe⟩ := idled_iterate_frame s k
  rw [hframe] at hrun hend hdt hst hout
  exact ⟨_, hrun, hend, rfl, hdt, hst, rfl, rfl, rfl, rfl, rfl, rfl, rfl, rfl, rfl, hout⟩

end

theorem executes_idled {s : State} {w : Word} {i : Instr} (h : s.Executes w i) : s.idled.Executes w i :=
  executes_congr rfl rfl rfl rfl h

/-- A step whose instruction changes nothing only ticks. -/
theorem step_eq_idled {s : State} {w : Word} {i : Instr} (hex : s.Executes w i)
    (hexec : exec i s.clearOutputs = .next s.clearOutputs) : step s = .next s.idled := by
  rw [step_of_executes hex hexec, endStep_of_running s.clearOutputs hex.1, State.idled]

/-- Settles O51: with no key pressed LD Vx, K changes nothing (R162). -/
theorem keyWaitHangs : Obligations.KeyWaitHangs := by
  refine idling_end (fun s hs => ?step) (fun s hs => ?keeps)
  case step =>
    obtain ⟨⟨w, x, hex⟩, hnone⟩ := hs
    exact step_eq_idled hex (exec_ldVxK_of_none ((highestKeyBelow_none s.clearOutputs _).2 fun j _ => hnone j))
  case keeps =>
    obtain ⟨⟨w, x, hex⟩, hnone⟩ := hs
    exact ⟨⟨w, x, executes_idled hex⟩, hnone⟩

/-- Settles O52: a jump to its own address leaves PC where it is (R102). -/
theorem selfJumpIdles : Obligations.SelfJumpIdles := by
  refine idling_end (fun s hs => ?step) (fun s hs => ?keeps)
  case step =>
    obtain ⟨w, nnn, hex, hself⟩ := hs
    have hexec : exec (.jp nnn) s.clearOutputs = .next (s.clearOutputs.setPc (zextAddr nnn)) := rfl
    rw [hself] at hexec
    exact step_eq_idled hex hexec
  case keeps =>
    obtain ⟨w, nnn, hex, hself⟩ := hs
    exact ⟨w, nnn, executes_idled hex, hself⟩

end Sys2Proof.Machine

/-! ## Proofs: fault causes. What makes each check of an instruction fail, which of them a step's fault comes from, and
the two statements about its record (60_exceptions.md section 3). -/

namespace Sys2Proof.Machine

/-! ### The failing checks -/

/-- Data address `k` is the first of `n` above 0xFFF, the one that a fault of memory names (R207). -/
def FirstOutside (s : State) (n k : Nat) : Prop :=
  k < n ∧ s.dataAddr k > 0xFFF ∧ ∀ j, j < k → s.dataAddr j ≤ 0xFFF

theorem memReadAll_eq_error {s : State} {n : Nat} {c : FaultCause} (h : s.memReadAll (s.dataAddrs n) = .error c) :
    ∃ k, FirstOutside s n k ∧ c = ⟨.memReadOob, some (s.dataAddr k)⟩ := by
  obtain hok | ⟨k, hk, hgt, hfirst, herr⟩ := memReadAll_dataAddrs_cases s n
  · rw [hok] at h; cases h
  · rw [herr] at h; cases h; exact ⟨k, ⟨hk, hgt, hfirst⟩, rfl⟩

theorem checkWriteAll_eq_error {s : State} {n : Nat} {c : FaultCause}
    (h : s.checkWriteAll (s.dataAddrs n) = .error c) :
    (∃ k, FirstOutside s n k ∧ c = ⟨.memWriteOob, some (s.dataAddr k)⟩) ∨
    (s.params.fontWrite = .fault ∧ s.dataAddr 0 ≤ 0x04F ∧ c = ⟨.fontWrite, some (s.dataAddr 0)⟩) := by
  obtain ⟨-, hok⟩ | ⟨k, hk, hgt, hfirst, herr⟩ | ⟨hfont, hle, herr⟩ := checkWriteAll_dataAddrs_cases s n
  · rw [hok] at h; cases h
  · rw [herr] at h; cases h; exact .inl ⟨k, ⟨hk, hgt, hfirst⟩, rfl⟩
  · rw [herr] at h; cases h; exact .inr ⟨hfont, hle, rfl⟩

/-- A set bit of the sprite that lies off the display where that faults, the cause that names it (R151, R205). -/
def OffDisplay (s : State) (x y : Reg) (n : Count) (c : FaultCause) : Prop :=
  s.params.drawEdge = .fault ∧ s.SpriteReadable n ∧ ∃ row col, row < n.toNat ∧ col < 8 ∧ s.spriteSet row col ∧
    (s.spriteX x col > 63 ∨ s.spriteY y row > 31) ∧
    c = ⟨.displayOob, some (s.spriteY y row * 64 + s.spriteX x col)⟩

/-- A draw fails at a row that cannot be read, or, with every row readable, at a set bit off the display (R150). -/
theorem spriteHits_eq_error {s : State} {x y : Reg} {n : Count} {c : FaultCause}
    (h : s.spriteHits x y n = .error c) :
    (∃ k, FirstOutside s n.toNat k ∧ c = ⟨.memReadOob, some (s.dataAddr k)⟩) ∨ OffDisplay s x y n c := by
  by_cases hread : s.SpriteReadable n
  · rw [State.spriteHits, memReadAll_of_readable s n hread] at h
    obtain ⟨q, hq, index, hoff, rfl⟩ := placeAll_error_cases _ _ _ h
    obtain ⟨row, col, hrow, hcol, hset, rfl⟩ := (mem_spritePixels_iff s x y n.toNat q).1 hq
    obtain ⟨hpol, hout, rfl⟩ := place_off hoff
    exact .inr ⟨hpol, hread, row, col, hrow, hcol, hset, hout, rfl⟩
  · rw [spriteReadable_iff, not_or] at hread
    obtain ⟨hend, hrows⟩ := hread
    have herr := memReadAll_dataAddrs_oob s n.toNat (Nat.lt_of_not_le hend) (Nat.pos_of_ne_zero hrows)
    rw [State.spriteHits, herr] at h
    cases h
    obtain ⟨k, hk, hc⟩ := memReadAll_eq_error herr
    exact .inl ⟨k, hk, hc⟩

/-! ### What the checks read -/

section
variable {s t : State}

theorem dataAddrs_congr (hi : t.i = s.i) (n : Nat) : t.dataAddrs n = s.dataAddrs n := by
  have hk : t.dataAddr = s.dataAddr := funext fun k => by rw [State.dataAddr, State.dataAddr, hi]
  rw [State.dataAddrs, State.dataAddrs, hk]

theorem memReadAll_congr (hm : t.mem = s.mem) (l : List Nat) : t.memReadAll l = s.memReadAll l := by
  induction l with
  | nil => rfl
  | cons a l ih =>
    have ha : t.memRead a = s.memRead a := by simp only [State.memRead, State.byteAt, hm]
    rw [State.memReadAll, State.memReadAll, ha, ih]

theorem checkWriteAll_congr (hp : t.params = s.params) (l : List Nat) : t.checkWriteAll l = s.checkWriteAll l := by
  induction l with
  | nil => rfl
  | cons a l ih =>
    have ha : t.checkWrite a = s.checkWrite a := by simp only [State.checkWrite, hp]
    rw [State.checkWriteAll, State.checkWriteAll, ha, ih]

theorem spriteHits_congr {x y : Reg} {n : Count} (hi : t.i = s.i) (hm : t.mem = s.mem) (hp : t.params = s.params)
    (hx : t.reg x = s.reg x) (hy : t.reg y = s.reg y) : t.spriteHits x y n = s.spriteHits x y n := by
  rw [State.spriteHits, State.spriteHits, dataAddrs_congr hi, memReadAll_congr hm, hp, hx, hy]

end

/-! ### Where a step's fault comes from -/

/-- Clearing the outputs does not change what the checks read. -/
theorem raises_clearOutputs {s : State} {c : FaultCause} {i : Instr} : Raises s.clearOutputs c i ↔ Raises s c i := by
  cases i
  case drw => rw [Raises, Raises, spriteHits_congr s.clearOutputs_i s.clearOutputs_mem s.clearOutputs_params
    (s.clearOutputs_reg _) (s.clearOutputs_reg _)]
  case ldB | ldMemVx => rw [Raises, Raises, dataAddrs_congr s.clearOutputs_i, checkWriteAll_congr s.clearOutputs_params]
  case ldVxMem => rw [Raises, Raises, dataAddrs_congr s.clearOutputs_i, memReadAll_congr s.clearOutputs_mem]
  all_goals exact Iff.rfl

/-- Whatever raises it, a step's fault has a record of one of three forms: of the fetch, of an unknown word, or of the
checks of the instruction executed, whose word is the one fetched (R208). -/
theorem step_fault_cases {s t : State} {r : FaultRecord} (hstep : step s = .next t) (hr : t.fault = some r) :
    (∃ c, s.fetch = .error c ∧ r = ⟨c.code, s.pc, none, c.info⟩) ∨
    (∃ w, s.fetch = .ok w ∧ (∀ i, decode w ≠ .ok i) ∧ r = ⟨.unknownInstruction, s.pc, some w, none⟩) ∨
    (∃ w i c, s.Executes w i ∧ Raises s c i ∧ r = ⟨c.code, s.pc, some w, c.info⟩) := by
  obtain ⟨hrun, ⟨c, hfetch, rfl⟩ | ⟨w, hfetch, hunknown, rfl⟩ | ⟨w, i, u, hex, hexec, rfl⟩⟩ := step_next_cases hstep
  · cases hr; exact .inl ⟨c, hfetch, rfl⟩
  · cases hr; exact .inr (.inl ⟨w, hfetch, hunknown, rfl⟩)
  · rw [endStep_fault] at hr
    obtain hc | ⟨c, hc, rfl⟩ := exec_commits_or_raises hexec
    · rw [(unchanged_of_commits hc).fault, State.clearOutputs_fault, hrun] at hr; cases hr
    · cases hr
      obtain ⟨hword, -⟩ := encodeOfDecode w i hex.2.2
      exact .inr (.inr ⟨w, i, c, hex, raises_clearOutputs.1 hc, by rw [hword]; rfl⟩)

/-- No instruction raises a fault of the fetch. -/
theorem code_of_raises {s : State} {c : FaultCause} {i : Instr} (h : Raises s c i) :
    c.code ≠ .fetchOob ∧ c.code ≠ .misalignedFetch := by
  cases i
  case sys => cases h; exact ⟨nofun, nofun⟩
  case ret | call | skp | sknp => obtain ⟨-, rfl⟩ := h; exact ⟨nofun, nofun⟩
  case ldVxMem => obtain ⟨k, -, rfl⟩ := memReadAll_eq_error h; exact ⟨nofun, nofun⟩
  case ldB | ldMemVx => obtain ⟨k, -, rfl⟩ | ⟨-, -, rfl⟩ := checkWriteAll_eq_error h <;> exact ⟨nofun, nofun⟩
  case drw =>
    obtain ⟨k, -, rfl⟩ | ⟨-, -, row, col, -, -, -, -, rfl⟩ := spriteHits_eq_error h <;> exact ⟨nofun, nofun⟩
  all_goals cases h

/-- A fetch raises the two fetch faults alone (R70). -/
theorem code_of_fetch_error {s : State} {c : FaultCause} (h : s.fetch = .error c) :
    c.code = .fetchOob ∨ c.code = .misalignedFetch := by
  obtain ⟨-, he⟩ | ⟨-, -, -, he⟩ | ⟨-, -, hok⟩ := fetch_cases s
  · rw [he] at h; cases h; exact .inl rfl
  · rw [he] at h; cases h; exact .inr rfl
  · rw [hok] at h; cases h

/-- Settles O40, by the three forms of a step's record: only that of a fetch fault has no word. -/
theorem faultRecordNamesStep : Obligations.FaultRecordNamesStep := by
  intro s t r hrun hstep hr
  have hpc : t.pc = s.pc := by rw [faultsArePrecise s t r hrun hstep hr]
  have hresult : t.stepResult = .faulted r := by rw [State.stepResult, hr]
  have hrecord : r.pc = s.pc ∧ ((r.code = .fetchOob ∨ r.code = .misalignedFetch) → r.word = none) ∧
      (r.code ≠ .fetchOob → r.code ≠ .misalignedFetch → ∃ w, s.fetch = .ok w ∧ r.word = some w) := by
    obtain ⟨c, hfetch, rfl⟩ | ⟨w, hfetch, -, rfl⟩ | ⟨w, i, c, hex, hraises, rfl⟩ := step_fault_cases hstep hr
    · exact ⟨rfl, fun _ => rfl, fun hoob hmis => ((code_of_fetch_error hfetch).elim hoob hmis).elim⟩
    · exact ⟨rfl, nofun, fun _ _ => ⟨w, hfetch, rfl⟩⟩
    · obtain ⟨hoob, hmis⟩ := code_of_raises hraises
      exact ⟨rfl, fun hcode => (hcode.elim hoob hmis).elim, fun _ _ => ⟨w, hex.2.1, rfl⟩⟩
  exact ⟨hrecord.1, hpc, hresult, step_of_stopped hr, hrecord.2⟩

/-- Settles O42: the code and the info are those of the check that failed, in the fetch, the decoder or the instruction. -/
theorem faultCauses : Obligations.FaultCauses := by
  intro s t r hrun hstep hr
  obtain ⟨c, hfetch, rfl⟩ | ⟨w, hfetch, hunknown, rfl⟩ | ⟨w, i, c, hex, hraises, rfl⟩ := step_fault_cases hstep hr
  · obtain ⟨hpc, he⟩ | ⟨hpc, hodd, hpol, he⟩ | ⟨-, -, hok⟩ := fetch_cases s
    · rw [he] at hfetch; cases hfetch; exact ⟨hpc, rfl⟩
    · rw [he] at hfetch; cases hfetch; exact ⟨hpc, hodd, hpol, rfl⟩
    · rw [hok] at hfetch; cases hfetch
  · exact ⟨rfl, w, hfetch, hunknown⟩
  · cases i
    case sys nnn => cases hraises; exact ⟨rfl, w, nnn, hex⟩
    case ret => obtain ⟨hsp, rfl⟩ := hraises; exact ⟨rfl, hsp, w, hex⟩
    case call nnn => obtain ⟨hsp, rfl⟩ := hraises; exact ⟨rfl, hsp, w, nnn, hex⟩
    case skp x => obtain ⟨hgt, rfl⟩ := hraises; exact ⟨w, x, .inl hex, hgt, rfl⟩
    case sknp x => obtain ⟨hgt, rfl⟩ := hraises; exact ⟨w, x, .inr hex, hgt, rfl⟩
    case ldVxMem x =>
      obtain ⟨k, ⟨hk, hgt, hfirst⟩, rfl⟩ := memReadAll_eq_error hraises
      exact ⟨k, rfl, hgt, hfirst, w, .inr ⟨x, hex, Nat.le_of_lt_succ hk⟩⟩
    case ldB x =>
      obtain ⟨k, ⟨hk, hgt, hfirst⟩, rfl⟩ | ⟨hfont, hle, rfl⟩ := checkWriteAll_eq_error hraises
      · exact ⟨k, rfl, hgt, hfirst, w, x, .inl ⟨hex, hk⟩⟩
      · exact ⟨hfont, rfl, hle, w, x, .inl hex⟩
    case ldMemVx x =>
      obtain ⟨k, ⟨hk, hgt, hfirst⟩, rfl⟩ | ⟨hfont, hle, rfl⟩ := checkWriteAll_eq_error hraises
      · exact ⟨k, rfl, hgt, hfirst, w, x, .inr ⟨hex, Nat.le_of_lt_succ hk⟩⟩
      · exact ⟨hfont, rfl, hle, w, x, .inr hex⟩
    case drw x y n =>
      obtain ⟨k, ⟨hk, hgt, hfirst⟩, rfl⟩ | ⟨hpol, hread, row, col, hrow, hcol, hset, hout, rfl⟩ :=
        spriteHits_eq_error hraises
      · exact ⟨k, rfl, hgt, hfirst, w, .inl ⟨x, y, n, hex, hk⟩⟩
      · exact ⟨hpol, w, x, y, n, row, col, hex, hread, hrow, hcol, hset, hout, rfl⟩
    all_goals cases hraises

end Sys2Proof.Machine

/-! ## Proofs: the register table. Two states that agree but for one register stay so under every update, and every
instruction that does not read the register is made of such updates (10_state.md rule R22). -/

namespace Sys2Proof.Machine

/-! ### States that agree but for one register -/

/-- `t'` is `t`, up to register `r`, which may hold `b`. -/
def AgreesBut (r : Reg) (b : Byte) (t t' : State) : Prop := t' = t ∨ t' = t.setReg r b

section
variable {r : Reg} {b : Byte} {t t' : State} (h : AgreesBut r b t t')
include h

/-- Agreement is kept by every update that commutes with the write of the register. -/
theorem AgreesBut.map (g : State → State) (hg : ∀ u, g (u.setReg r b) = (g u).setReg r b) :
    AgreesBut r b (g t) (g t') := by
  obtain rfl | rfl := h
  · exact .inl rfl
  · exact .inr (hg t)

/-- Agreement is kept by a write to any register: at `r` itself it becomes equality. -/
theorem AgreesBut.setReg (x : Reg) (c : Byte) : AgreesBut r b (t.setReg x c) (t'.setReg x c) := by
  obtain rfl | rfl := h
  · exact .inl rfl
  · rw [setReg_setReg]
    split
    · exact .inl rfl
    · exact .inr rfl

theorem AgreesBut.commitFlagged (d : Reg) (c : Byte) (f : Bool) :
    AgreesBut r b (t.commitFlagged d c f) (t'.commitFlagged d c f) := by
  have hparams : t'.params = t.params := by obtain rfl | rfl := h <;> rfl
  unfold State.commitFlagged
  rw [hparams]
  split
  · exact (h.setReg d c).setReg regF _
  · exact (h.setReg regF _).setReg d c

end

/-- States that differ in registers only, and in no register, are equal. -/
theorem eq_of_reg_eq {t u : State} (hrest : u = { t with v := u.v }) (hreg : ∀ q, u.reg q = t.reg q) : u = t := by
  have hv : u.v = t.v := Vector.ext fun j hj => by
    have hq := hreg (BitVec.ofNat 4 j)
    simpa [State.reg, Nat.mod_eq_of_lt hj] using hq
  rw [hrest, hv]

/-- Loading the first registers over a write of one of them hides it, and commutes with the write of another. -/
theorem agreesBut_loadRegs (s : State) (r : Reg) (b : Byte) (bs : List Byte) :
    AgreesBut r b (s.loadRegs bs) ((s.setReg r b).loadRegs bs) := by
  by_cases hr : r.toNat < bs.length
  · refine .inl (eq_of_reg_eq rfl fun q => ?_)
    rw [reg_loadRegs, reg_loadRegs, reg_setReg]
    split
    · rfl
    · rw [if_neg fun hq => absurd (hq ▸ hr) ‹_›]
  · refine .inr (eq_of_reg_eq rfl fun q => ?_)
    rw [reg_loadRegs, reg_setReg, reg_setReg, reg_loadRegs]
    by_cases hq : q = r
    · subst hq; rw [if_neg hr, if_pos rfl, if_pos rfl]
    · rw [if_neg hq, if_neg hq]

/-! ### Instructions that do not read the register -/

/-- The first registers do not see a write past them. -/
theorem regBytes_setReg {s : State} {r : Reg} {b : Byte} {n : Nat} (hr : n ≤ r.toNat) :
    (s.setReg r b).regBytes n = s.regBytes n := by
  refine List.map_congr_left fun k hk => ?_
  have hlt : k < n := List.mem_range.1 hk
  have hne : BitVec.ofNat 4 k ≠ r := fun he => by
    have hk' : (BitVec.ofNat 4 k).toNat = k := Nat.mod_eq_of_lt (by omega)
    rw [he] at hk'
    omega
  rw [reg_setReg, if_neg hne]

theorem highestKeyBelow_setReg (s : State) (r : Reg) (b : Byte) (n : Nat) :
    (s.setReg r b).highestKeyBelow n = s.highestKeyBelow n := by
  induction n with
  | zero => rfl
  | succ n ih => rw [State.highestKeyBelow, State.highestKeyBelow, State.setReg_keyDown, ih]

section
variable {i : Instr} {s : State} {r : Reg} (b : Byte) (hr : ¬ readsReg r i)
include hr

/-- A check that fails still fails with another value in a register that the instruction does not read. -/
theorem raises_setReg {c : FaultCause} (h : Raises s c i) : Raises (s.setReg r b) c i := by
  have hreg (x : Reg) (hx : ¬ r = x) : (s.setReg r b).reg x = s.reg x := by rw [reg_setReg, if_neg (Ne.symm hx)]
  cases i
  case sys | ret | call => exact h
  case skp x | sknp x => rw [Raises, hreg x hr]; exact h
  case drw x y n =>
    obtain ⟨hx, hy⟩ := not_or.1 (show ¬ (r = x ∨ r = y) from hr)
    rw [Raises, spriteHits_congr (s.setReg_i r b) (s.setReg_mem r b) (s.setReg_params r b) (hreg x hx) (hreg y hy)]
    exact h
  case ldB | ldMemVx => rw [Raises, dataAddrs_congr (s.setReg_i r b), checkWriteAll_congr (s.setReg_params r b)]; exact h
  case ldVxMem => rw [Raises, dataAddrs_congr (s.setReg_i r b), memReadAll_congr (s.setReg_mem r b)]; exact h
  all_goals cases h

/-- An instruction that commits does the same with another value in a register that it does not read, but for that
register where it is not written. -/
theorem exec_setReg_of_commits {t : State} (h : Commits s t i) :
    ∃ t', exec i (s.setReg r b) = .next t' ∧ AgreesBut r b t t' := by
  have hreg (x : Reg) (hx : ¬ r = x) : (s.setReg r b).reg x = s.reg x := by rw [reg_setReg, if_neg (Ne.symm hx)]
  have hs : AgreesBut r b s (s.setReg r b) := .inr rfl
  cases i
  case sys => cases h
  case cls | jp | ldI => cases h; exact ⟨_, rfl, .inr rfl⟩
  case ret => obtain ⟨hsp, rfl⟩ := h; exact ⟨_, exec_ret_of_nonempty (s := s.setReg r b) hsp, .inr rfl⟩
  case call nnn =>
    obtain ⟨hsp, rfl⟩ := h
    exact ⟨_, exec_call_of_not_full (s := s.setReg r b) nnn hsp, .inr rfl⟩
  case jpV0 nnn =>
    cases h
    refine ⟨_, rfl, ?_⟩
    rw [hreg reg0 hr]
    exact .inr rfl
  case seImm x nn | sneImm x nn | ldDtVx x | ldStVx x | ldF x =>
    cases h
    refine ⟨_, rfl, ?_⟩
    rw [hreg x hr]
    exact .inr rfl
  case seReg x y | sneReg x y =>
    obtain ⟨hx, hy⟩ := not_or.1 (show ¬ (r = x ∨ r = y) from hr)
    cases h
    refine ⟨_, rfl, ?_⟩
    rw [hreg x hx, hreg y hy]
    exact .inr rfl
  case ldImm | ldVxDt => cases h; exact ⟨_, rfl, (hs.setReg _ _).map State.advance fun _ => rfl⟩
  case rnd x nn =>
    cases h
    exact ⟨_, rfl, (hs.setReg x _).map (fun u => { u with draws := s.draws + 1 }.advance) fun _ => rfl⟩
  case addImm x nn | ldReg _ x =>
    cases h
    refine ⟨_, rfl, ?_⟩
    rw [hreg x hr]
    exact (hs.setReg _ _).map State.advance fun _ => rfl
  case orReg x y | andReg x y | xorReg x y =>
    obtain ⟨hx, hy⟩ := not_or.1 (show ¬ (r = x ∨ r = y) from hr)
    cases h
    refine ⟨_, rfl, ?_⟩
    rw [hreg x hx, hreg y hy]
    exact (hs.setReg _ _).map State.advance fun _ => rfl
  case shr x y | shl x y =>
    cases h
    refine ⟨_, rfl, ?_⟩
    rw [hreg x hr]
    exact (hs.commitFlagged _ _ _).map State.advance fun _ => rfl
  case addReg x y | sub x y | subn x y =>
    obtain ⟨hx, hy⟩ := not_or.1 (show ¬ (r = x ∨ r = y) from hr)
    cases h
    refine ⟨_, rfl, ?_⟩
    rw [hreg x hx, hreg y hy]
    exact (hs.commitFlagged _ _ _).map State.advance fun _ => rfl
  case addI x =>
    cases h
    refine ⟨_, rfl, ?_⟩
    rw [hreg x hr]
    exact (hs.setReg regF _).map (fun u => (u.setI (s.i + zextByte (s.reg x))).advance) fun _ => rfl
  case skp x =>
    obtain ⟨hx, rfl⟩ := h
    refine ⟨_, exec_skp_of_le (by rwa [hreg x hr]), ?_⟩
    rw [hreg x hr]
    exact .inr rfl
  case sknp x =>
    obtain ⟨hx, rfl⟩ := h
    refine ⟨_, exec_sknp_of_le (by rwa [hreg x hr]), ?_⟩
    rw [hreg x hr]
    exact .inr rfl
  case drw x y n =>
    obtain ⟨hits, hhits, rfl⟩ := h
    obtain ⟨hx, hy⟩ := not_or.1 (show ¬ (r = x ∨ r = y) from hr)
    rw [← spriteHits_congr (s.setReg_i r b) (s.setReg_mem r b) (s.setReg_params r b) (hreg x hx) (hreg y hy)] at hhits
    have hdrawn : AgreesBut r b { s with display := toggleHits s.display hits }
        { s.setReg r b with display := toggleHits s.display hits } := .inr rfl
    exact ⟨_, exec_drw_of_ok hhits, (hdrawn.setReg regF _).map State.advance fun _ => rfl⟩
  case ldVxK x =>
    have hkeys := highestKeyBelow_setReg s r b
    obtain ⟨hnone, rfl⟩ | ⟨k, hsome, rfl⟩ := h
    · exact ⟨_, exec_ldVxK_of_none ((hkeys _).trans hnone), hs⟩
    · exact ⟨_, exec_ldVxK_of_some ((hkeys _).trans hsome), (hs.setReg x _).map State.advance fun _ => rfl⟩
  case ldB x =>
    obtain ⟨hw, rfl⟩ := h
    refine ⟨_, exec_ldB_of_ok (checkWriteAll_ok _ _ hw), ?_⟩
    rw [hreg x hr]
    exact .inr rfl
  case ldMemVx x =>
    obtain ⟨hw, rfl⟩ := h
    refine ⟨_, exec_ldMemVx_of_ok (checkWriteAll_ok _ _ hw), ?_⟩
    rw [regBytes_setReg (n := regCount x) (Nat.lt_of_not_le hr)]
    exact .inr rfl
  case ldVxMem x =>
    obtain ⟨bs, hbs, -, rfl⟩ := h
    rw [← dataAddrs_congr (s.setReg_i r b), ← memReadAll_congr (s.setReg_mem r b)] at hbs
    exact ⟨_, exec_ldVxMem_of_ok hbs, (agreesBut_loadRegs s r b bs).map
      (fun u => (u.setI (s.indexAfter (regCount x))).advance) fun _ => rfl⟩

end

/-- A check that fails is the end of the instruction. -/
theorem exec_of_raises {i : Instr} {s : State} {c : FaultCause} (h : Raises s c i) :
    exec i s = .next (s.takeFault c (some (encode i))) := by
  cases i
  case sys nnn => cases h; exact exec_sys nnn s
  case ret => obtain ⟨hsp, rfl⟩ := h; exact exec_ret_of_empty hsp
  case call nnn => obtain ⟨hsp, rfl⟩ := h; exact exec_call_of_full nnn hsp
  case drw => exact exec_drw_of_error h
  case skp => obtain ⟨hx, rfl⟩ := h; exact exec_skp_of_gt hx
  case sknp => obtain ⟨hx, rfl⟩ := h; exact exec_sknp_of_gt hx
  case ldB => exact exec_ldB_of_error h
  case ldMemVx => exact exec_ldMemVx_of_error h
  case ldVxMem => exact exec_ldVxMem_of_error h
  all_goals cases h

/-- Settles O46: the footprint of an instruction holds the registers it writes, and a fault of its checks is taken with
whatever value the register has. -/
theorem registersReadAndWritten : Obligations.RegistersReadAndWritten := by
  refine ⟨fun i s t r hexec hr => ?writes, fun i s t r b hr hexec => ?reads⟩
  case writes =>
    obtain hframe | ⟨c, rfl⟩ := unchanged_or_takesFault hexec
    · exact hframe.regs r hr
    · rfl
  case reads =>
    obtain hc | ⟨c, hc, rfl⟩ := exec_commits_or_raises hexec
    · exact exec_setReg_of_commits b hr hc
    · exact ⟨_, exec_of_raises (raises_setReg b hr hc), .inr rfl⟩

end Sys2Proof.Machine

/-! ## Proofs: single instructions and pairs of them. RND and the writes of the timers, a CALL and the RET after it, and
the fetch of a word that LD [I], Vx stored (40_control_flow.md to 45_timers.md). -/

namespace Sys2Proof.Machine

/-- Settles O22: one register gets the drawn byte masked, and the count of draws moves on. -/
theorem randomMasked : Obligations.RandomMasked := by
  refine fun x nn => ⟨decode_packXNN_rnd x nn, fun s => ⟨_, rfl, fun k => ?bits, rfl, rfl, ?frame⟩⟩
  case bits =>
    show ((s.setReg x _).reg x).getLsbD k = _
    rw [reg_setReg, if_pos rfl, BitVec.getLsbD_and]
  case frame =>
    have hs : Unchanged { regs := (· = x), draws := True } s s := Unchanged.refl _ s
    exact ((hs.setReg rfl _).setDraws trivial _).setPc _

/-! ### Writes of the timers -/

/-- An instruction run to the end of its step, where no fault stands (R200). -/
theorem runInstr_of_exec {i : Instr} {s t : State} (hexec : exec i s = .next t) (hrun : t.fault = none) :
    s.runInstr i = .next t.tick := by
  rw [State.runInstr, hexec]
  exact congrArg Host.Outcome.next (endStep_of_running t hrun)

/-- Settles O34: the tick of the same step sees the value written. -/
theorem setDelay : Obligations.SetDelay := by
  refine fun x => ⟨by simp, fun s => ⟨(s.setDt (s.reg x)).advance, rfl, rfl, rfl, ?frame, fun hrun => ?ticked⟩⟩
  case frame => exact ((Unchanged.refl { dt := True } s).setDt trivial _).setPc _
  case ticked => exact ⟨_, runInstr_of_exec rfl hrun, tickDown_toNat _⟩

/-- Settles O35: the tick of the same step sees the value written, and sounds the buzzer at 1. -/
theorem setSound : Obligations.SetSound := by
  refine fun x => ⟨by simp, fun s => ⟨(s.setSt (s.reg x)).advance, rfl, rfl, rfl, ?frame, fun hrun hquiet => ?ticked⟩⟩
  case frame => exact ((Unchanged.refl { st := True } s).setSt trivial _).setPc _
  case ticked =>
    exact ⟨_, runInstr_of_exec rfl hrun, tickDown_toNat _, tick_buzzer_iff (s := (s.setSt (s.reg x)).advance) hquiet⟩

/-! ### CALL and RET -/

/-- Settles O50: RET pops the entry that CALL pushed. -/
theorem callThenReturn : Obligations.CallThenReturn := by
  intro nnn s hsp
  obtain ⟨-, hpushes, -⟩ := callPushesOwnAddress nnn
  obtain ⟨-, hpops, -⟩ := returnPopsStack
  obtain ⟨t, hcall, hentry, htsp, -⟩ := hpushes s hsp
  obtain ⟨u, hret, husp, hupc, -⟩ := hpops t (by omega)
  rw [htsp, Nat.add_sub_cancel] at husp hupc
  exact ⟨t, u, hcall, hret, by rw [hupc, hentry], Fin.ext husp⟩

/-! ### A stored word, fetched -/

/-- A register that LD [I], Vx stores stands at its data address (R144). -/
theorem byteAt_of_commits_ldMemVx {x r : Reg} {s t : State} (hwf : s.mem.wf = true) (h : Commits s t (.ldMemVx x))
    (hr : r.toNat ≤ x.toNat) : t.byteAt (s.dataAddr r.toNat) = s.reg r := by
  obtain ⟨hw, rfl⟩ := h
  have hcount : r.toNat < regCount x := Nat.lt_succ_of_le hr
  have hend : s.dataAddr (s.regBytes (regCount x)).length ≤ memSize := by
    rw [length_regBytes]; exact dataAddr_le_of_writable (Nat.succ_pos _) hw
  rw [State.advance_byteAt, State.setI_byteAt, byteAt_storeBytes_dataAddr hwf hend (by rwa [length_regBytes]),
    regBytes_getD s _ r hcount]

/-- Settles O49: both bytes of the word at PC are stored registers, and the store ended inside memory. -/
theorem storesAreFetched : Obligations.StoresAreFetched := by
  intro x r s t hwf hexec hrun hr hpc hpass
  obtain hc | ⟨c, -, rfl⟩ := exec_commits_or_raises hexec
  · obtain ⟨hw, -⟩ := id hc
    have hend : s.dataAddr (regCount x) ≤ memSize := dataAddr_le_of_writable (Nat.succ_pos _) hw
    have hle : t.pc.toNat ≤ 0xFFE := by
      rw [hpc]; unfold State.dataAddr regCount memSize at *; omega
    have hx := x.isLt
    have hnext : (r + 1).toNat = r.toNat + 1 := by
      rw [BitVec.toNat_add]; exact Nat.mod_eq_of_lt (Nat.lt_of_le_of_lt hr hx)
    have hhigh := byteAt_of_commits_ldMemVx hwf hc (Nat.le_of_lt hr)
    have hlow := byteAt_of_commits_ldMemVx (r := r + 1) hwf hc (by rw [hnext]; exact hr)
    refine ⟨_, fetch_of_checks_pass hle hpass, ?_⟩
    rw [State.wordAt, wordOfBytes_toNat, hpc, hhigh, ← hlow, hnext]
    rfl
  · cases hrun

end Sys2Proof.Machine

/-! ## Proofs: the collision laws. A draw that completes, stated from its end, and what a second draw at the same place
sees (43_display.md rule R153). -/

namespace Sys2Proof.Machine

/-- What a draw that completes has done, in the terms of its hits (R150). -/
structure Drawn (x y : Reg) (n : Count) (s t : State) : Prop where
  toggled : ∀ p, s.Hits x y n p →
    Display.cell t.display p = if Display.cell s.display p = 0x00#8 then 0x01#8 else 0x00#8
  bit : t.reg regF = 0x01#8 ∨ t.reg regF = 0x00#8
  collision : t.reg regF = 0x01#8 ↔ ∃ p, s.Hits x y n p ∧ Display.cell s.display p ≠ 0x00#8
  frame : Unchanged { regs := (· = regF), cells := s.Hits x y n } s t

theorem drawn_exists {x y : Reg} {n : Count} {s : State} (hread : s.SpriteReadable n)
    (hplace : s.SpritePlaceable x y n) : ∃ t, exec (.drw x y n) s = .next t ∧ Drawn x y n s t := by
  obtain ⟨-, hdraws, -⟩ := drawSprite x y n
  obtain ⟨t, hexec, htoggled, hbit, hcollision, -, hframe⟩ := hdraws s hread hplace
  exact ⟨t, hexec, htoggled, hbit, hcollision, hframe⟩

theorem drawn_of_next {x y : Reg} {n : Count} {s t : State} (hread : s.SpriteReadable n)
    (hplace : s.SpritePlaceable x y n) (hexec : exec (.drw x y n) s = .next t) : Drawn x y n s t := by
  obtain ⟨t', hexec', hdrawn⟩ := drawn_exists hread hplace
  rw [hexec] at hexec'
  cases hexec'
  exact hdrawn

/-- A draw turns a cell on exactly when it is hit and is on afterwards: a hit cell is on afterwards when it was 0, and a
cell that is not hit stays. -/
theorem Drawn.turned_on_iff {x y : Reg} {n : Count} {s t : State} (h : Drawn x y n s t) (p : Pixel) :
    (Display.cell s.display p = 0x00#8 ∧ Display.cell t.display p = 0x01#8) ↔
      s.Hits x y n p ∧ Display.cell t.display p ≠ 0x00#8 := by
  by_cases hp : s.Hits x y n p
  · rw [h.toggled p hp]
    split <;> simp [*]
  · rw [h.frame.cells p hp]
    exact iff_of_false (fun ⟨h0, h1⟩ => absurd (h0.symm.trans h1) (by decide)) fun ⟨hhit, _⟩ => hp hhit

/-- Toggling a cell of 0 or 1 twice restores it (R153). -/
theorem toggle_toggle {c : Byte} (hc : c = 0x00#8 ∨ c = 0x01#8) :
    (if (if c = 0x00#8 then 0x01#8 else 0x00#8) = 0x00#8 then 0x01#8 else 0x00#8) = c := by
  obtain rfl | rfl := hc <;> rfl

section
variable {x y : Reg} {s t : State} (hi : t.i = s.i) (hb : ∀ a, t.byteAt a = s.byteAt a) (hp : t.params = s.params)
  (hx : t.reg x = s.reg x) (hy : t.reg y = s.reg y)
include hi hb hp hx hy

/-- A sprite drawn at the same place from the same bytes has the same readable rows, placeable bits and hits. -/
theorem sprite_congr (n : Count) : (t.SpriteReadable n ↔ s.SpriteReadable n) ∧
    (t.SpritePlaceable x y n ↔ s.SpritePlaceable x y n) ∧ ∀ p, t.Hits x y n p ↔ s.Hits x y n p := by
  have haddr : t.dataAddr = s.dataAddr := funext fun k => by rw [State.dataAddr, State.dataAddr, hi]
  have hset : t.spriteSet = s.spriteSet := funext fun r => funext fun c => by
    rw [State.spriteSet, State.spriteSet, haddr, hb]
  have hcol : t.spriteX x = s.spriteX x := funext fun c => by rw [State.spriteX, State.spriteX, hx]
  have hrow : t.spriteY y = s.spriteY y := funext fun r => by rw [State.spriteY, State.spriteY, hy]
  simp only [State.SpriteReadable, State.SpritePlaceable, State.Hits, haddr, hset, hcol, hrow, hp, implies_true,
    and_self]

end

/-- Settles O30: the second draw hits the same cells, and sees the first one's cells and nothing else changed; VF is
settled by the hits and their old values (`Drawn.collision`). -/
theorem drawTwiceRestores : Obligations.DrawTwiceRestores := by
  intro x y n s t hcells hread hplace hexec
  have hfirst := drawn_of_next hread hplace hexec
  refine ⟨fun hx hy => ?again, fun hclear => ?clear, fun s' t' hread' hplace' hexec' hhits hsame => ?same⟩
  case again =>
    have hframe := hfirst.frame
    obtain ⟨hread_iff, hplace_iff, hhits⟩ := sprite_congr (hframe.index id) (fun a => hframe.bytes a id)
      hframe.params hx hy n
    obtain ⟨u, hexec_u, hsecond⟩ := drawn_exists (hread_iff.2 hread) (hplace_iff.2 hplace)
    have hturned : u.reg regF = 0x01#8 ↔
        ∃ p, Display.cell s.display p = 0x00#8 ∧ Display.cell t.display p = 0x01#8 := by
      simp only [hsecond.collision, hhits, hfirst.turned_on_iff]
    refine ⟨u, hexec_u, fun p => ?_, hturned, fun hoff => hturned.trans (exists_congr fun p => ?_)⟩
    · by_cases hp : s.Hits x y n p
      · rw [hsecond.toggled p ((hhits p).2 hp), hfirst.toggled p hp, toggle_toggle (hcells p)]
      · rw [hsecond.frame.cells p (mt (hhits p).1 hp), hframe.cells p hp]
    · rw [hfirst.turned_on_iff]
      refine and_iff_left_of_imp fun hp => ?_
      rw [hfirst.toggled p hp, if_pos (hoff p hp)]
      decide
  case clear =>
    exact hfirst.bit.resolve_left fun hF =>
      have ⟨p, _, hon⟩ := hfirst.collision.1 hF
      hon (hclear p)
  case same =>
    have hsecond := drawn_of_next hread' hplace' hexec'
    have hF : t'.reg regF = 0x01#8 ↔ t.reg regF = 0x01#8 := by
      rw [hsecond.collision, hfirst.collision]
      refine exists_congr fun p => ?_
      rw [hhits p]
      exact and_congr_right fun hp => by rw [hsame p hp]
    obtain hbit | hbit := hfirst.bit
    · rw [hbit, hF.2 hbit]
    · rw [hbit]
      refine hsecond.bit.resolve_left fun hone => absurd (hbit.symm.trans (hF.1 hone)) (by decide)

end Sys2Proof.Machine
